-- ==== Sys2Proof/Word.lean ====
section
/-! DEFINITION. The bit vectors of tubcipher_core, under the names the spec uses for them.
Every vector is numbered from its least significant end as a bus (00_scope.md R8); the source's document index i of an
n-bit sequence is bus bit n-1-i, which is `BitVec.getMsbD`. -/

namespace Sys2Proof

/-- A Block: plaintext, ciphertext or an intermediate round state (00_scope.md R11). -/
abbrev Block := BitVec 27

/-- The Expanded Key as held in the key store `KEY` (10_state.md R24; log 6). -/
abbrev KeyStore := BitVec 2560

/-- One nibble of Key Material (00_scope.md R11). -/
abbrev Nibble := BitVec 4

/-- A mixing subkey `MK_r` (00_scope.md R11). -/
abbrev MixKey := BitVec 27

/-- A permutation-selector subkey `PK_r` (00_scope.md R11). -/
abbrev SelKey := BitVec 18

/-- The three bits `(c0, c1, c2)` of a group as the number `W = 4*c0 + 2*c1 + c2` (41_round_function.md R137). -/
abbrev Group := BitVec 3

/-- The selector `(a0, a1)` of a group (41_round_function.md R138). -/
abbrev Selector := BitVec 2

/-- A command word `CW[29:0]` (30_encoding.md R70). -/
abbrev CmdWord := BitVec 30

/-- The opcode field `CW[29:27]` (30_encoding.md R70). -/
abbrev Opcode := BitVec 3

/-- The data field `CW[26:0]` (30_encoding.md R70). -/
abbrev DataField := BitVec 27

end Sys2Proof
end

