-- ==== Sys2Proof/Config.lean ====
section
/-! DEFINITION. The constants of the one configuration of tubcipher_core (00_scope.md R5, R6).
None is a parameter and none is free: R6 says that "A model needs no free parameter". -/

namespace Sys2Proof.Config

/-- `BLOCK_BITS` (00_scope.md R5). -/
abbrev blockBits : Nat := 27

/-- `KEY_NIBBLES` (00_scope.md R5). -/
abbrev keyNibbles : Nat := 640

/-- `KEY_BITS` (00_scope.md R5). -/
abbrev keyBits : Nat := 2560

/-- `ROUNDS` (00_scope.md R5). -/
abbrev rounds : Nat := 56

/-- `MIX_BITS` (00_scope.md R5). -/
abbrev mixBits : Nat := 27

/-- `SEL_BITS` (00_scope.md R5). -/
abbrev selBits : Nat := 18

/-- `ROUND_KEY_STRIDE` (00_scope.md R5). -/
abbrev roundKeyStride : Nat := 45

/-- `GROUPS` (00_scope.md R5). -/
abbrev groups : Nat := 9

/-- `P_MULT` (00_scope.md R5). -/
abbrev pMult : Nat := 3

/-- `P_MOD` (00_scope.md R5). -/
abbrev pMod : Nat := 26

/-- `KEY_USED_BITS` (00_scope.md R5). -/
abbrev keyUsedBits : Nat := 2520

/-- `CMD_BITS` (00_scope.md R6). -/
abbrev cmdBits : Nat := 30

/-- `OP_BITS` (00_scope.md R6). -/
abbrev opBits : Nat := 3

/-- `DATA_BITS` (00_scope.md R6). -/
abbrev dataBits : Nat := 27

/-- `ROUNDS_PER_CYCLE` (00_scope.md R6). -/
abbrev roundsPerCycle : Nat := 1

/-- `RND_BITS` (00_scope.md R6). -/
abbrev rndBits : Nat := 6

/-- `KCNT_BITS` (00_scope.md R6). -/
abbrev kcntBits : Nat := 10

/-- `ERR_BITS` (00_scope.md R6). -/
abbrev errBits : Nat := 2

/-- `LATENCY` (00_scope.md R6): edges from the accepting edge of an operation to its completing edge. -/
abbrev latency : Nat := 56

end Sys2Proof.Config
end

