-- ==== Sys2Proof/Machine/Operands.lean ====
section
/-! DEFINITION. Operand forms: the fields of a command word (30_encoding.md R70, R71), the values of hex digits (R81),
and sequences written in document order (00_scope.md R7, R8). -/

namespace Sys2Proof.Machine

/-- The n-bit vector whose bit of document index i is `f i` (00_scope.md R8): each further index is one place less
significant. -/
def ofDoc : (n : Nat) → (Nat → Bool) → BitVec n
  | 0, _ => 0#0
  | n + 1, f => (ofDoc n f).concat (f n)

/-- `CW[29:27]` (30_encoding.md R70). -/
def opField (w : CmdWord) : Opcode := w.extractLsb' 27 3

/-- `CW[26:0]`: the block operand of ENCRYPT and DECRYPT, and the ignored bits elsewhere (30_encoding.md R71). -/
def dataField (w : CmdWord) : DataField := w.extractLsb' 0 27

/-- `CW[3:0]`: the nibble operand of KEY_NIBBLE (30_encoding.md R71). -/
def nibbleField (w : CmdWord) : Nibble := w.extractLsb' 0 4

/-- `CW[26:4]`: the ignored bits of KEY_NIBBLE (30_encoding.md R71). -/
def nibbleIgnored (w : CmdWord) : BitVec 23 := w.extractLsb' 4 23

/-- The command word `{op, data}` (30_encoding.md R70). -/
def cmdWord (op : Opcode) (data : DataField) : CmdWord := op ++ data

/-- The value of a hex digit character (30_encoding.md R81): `0`..`9` are 0..9, `a`..`f` and `A`..`F` are 10..15. -/
def hexDigit? (c : Char) : Option Nibble :=
  if '0'.toNat ≤ c.toNat ∧ c.toNat ≤ '9'.toNat then some (BitVec.ofNat 4 (c.toNat - '0'.toNat))
  else if 'a'.toNat ≤ c.toNat ∧ c.toNat ≤ 'f'.toNat then some (BitVec.ofNat 4 (c.toNat - 'a'.toNat + 10))
  else if 'A'.toNat ≤ c.toNat ∧ c.toNat ≤ 'F'.toNat then some (BitVec.ofNat 4 (c.toNat - 'A'.toNat + 10))
  else none

/-- The nibbles of a string of hex digits, in input order; none where a character is no hex digit. -/
def hexDigits? : List Char → Option (List Nibble)
  | [] => some []
  | c :: cs =>
    match hexDigit? c, hexDigits? cs with
    | some d, some ds => some (d :: ds)
    | _, _ => none

end Sys2Proof.Machine
end

