-- ==== Sys2Proof/Syntax.lean ====
section
/-! DEFINITION. The commands of the block (30_encoding.md R70 to R75), one constructor for each row of
spec/opcode_table.json, and the textual statements and host actions of 30_encoding.md R79 and R80. -/

namespace Sys2Proof

/-- A command word, read. The data bits R71 calls ignored are kept as the argument `ign`: R75 gives them no effect,
and keeping them makes reading and writing a word inverse to each other (log 12). -/
inductive Instr where
  /-- `NOP`, op 0b000 (42_engines.md R171). -/
  | nop (ign : DataField)
  /-- `KEY_RESET`, op 0b001 (40_key_expander_schedule.md R101). -/
  | keyReset (ign : DataField)
  /-- `KEY_NIBBLE`, op 0b010 (40_key_expander_schedule.md R102): `ign` is `CW[26:4]`, `v` is `CW[3:0]`. -/
  | keyNibble (ign : BitVec 23) (v : Nibble)
  /-- `ENCRYPT`, op 0b011 (42_engines.md R172). -/
  | encrypt (p : Block)
  /-- `DECRYPT`, op 0b100 (42_engines.md R173). -/
  | decrypt (c : Block)
  /-- reserved op 0b101 (42_engines.md R174). -/
  | reserved101 (ign : DataField)
  /-- reserved op 0b110 (42_engines.md R174). -/
  | reserved110 (ign : DataField)
  /-- reserved op 0b111 (42_engines.md R174). -/
  | reserved111 (ign : DataField)
deriving DecidableEq, Repr

/-- A statement of the textual form (30_encoding.md R79) or a pseudo-instruction (R80), with its operand as written:
a number of any size, or the characters of a key string. -/
inductive AsmStmt where
  | nop
  | krst
  | knib (v : Nat)
  | enc (p : Nat)
  | dec (c : Nat)
  | word (w : Nat)
  | key (h : List Char)
  | wait
  | read
  | encw (p : Nat)
  | decw (c : Nat)
deriving DecidableEq, Repr

/-- What a statement expands to (30_encoding.md R80): a command, or an action of the host, which has no encoding. -/
inductive HostAction where
  | command (w : CmdWord)
  | wait
  | read
deriving DecidableEq, Repr

/-- Why the assembler rejects a line (30_encoding.md R79, R81). -/
inductive AsmReject where
  /-- an operand outside its range (R79: "it never truncates"). -/
  | operandOutOfRange
  /-- a key string of another length than 640, or with a character that is no hex digit (R81). -/
  | malformedKey
  /-- an operand that is no number of a form R79 names. -/
  | malformedOperand
  /-- a line that is no row of R79 or R80. -/
  | noSuchStatement
deriving DecidableEq, Repr

end Sys2Proof
end

