-- ==== Sys2Proof/Decode.lean ====
section
/-! DEFINITION. The decoder of command words (30_encoding.md R70 to R75), and after it the encoder.
A command word is 30 parallel bits; there are no bytes in it and no byte order (20_memory.md R56). Decoding a 30-bit
word is total (R73); a number that does not fit 30 bits is rejected by name. -/

namespace Sys2Proof

/-- One row of the opcode map in its mask and match form (30_encoding.md R72). -/
structure OpcodeRow where
  mnemonic : String
  mask : CmdWord
  pattern : CmdWord
deriving DecidableEq, Repr

/-- The opcode map (30_encoding.md R72). -/
def opcodeRows : List OpcodeRow :=
  [ ⟨"NOP", 0x38000000#30, 0x00000000#30⟩,
    ⟨"KEY_RESET", 0x38000000#30, 0x08000000#30⟩,
    ⟨"KEY_NIBBLE", 0x38000000#30, 0x10000000#30⟩,
    ⟨"ENCRYPT", 0x38000000#30, 0x18000000#30⟩,
    ⟨"DECRYPT", 0x38000000#30, 0x20000000#30⟩,
    ⟨"RESERVED_101", 0x38000000#30, 0x28000000#30⟩,
    ⟨"RESERVED_110", 0x38000000#30, 0x30000000#30⟩,
    ⟨"RESERVED_111", 0x38000000#30, 0x38000000#30⟩ ]

/-- The command a word selects, by its `op` field alone (30_encoding.md R72, R73), with the operands of R71. -/
def decode (w : CmdWord) : Instr :=
  match (Machine.opField w).toFin with
  | 0 => .nop (Machine.dataField w)
  | 1 => .keyReset (Machine.dataField w)
  | 2 => .keyNibble (Machine.nibbleIgnored w) (Machine.nibbleField w)
  | 3 => .encrypt (Machine.dataField w)
  | 4 => .decrypt (Machine.dataField w)
  | 5 => .reserved101 (Machine.dataField w)
  | 6 => .reserved110 (Machine.dataField w)
  | 7 => .reserved111 (Machine.dataField w)

/-- Why a number is no command word. -/
inductive DecodeReject where
  /-- it has a bit above `CW[29]`: the format has 30 bits and no other (30_encoding.md R70). -/
  | widerThanCommandWord
deriving DecidableEq, Repr

/-- The command of the word whose bits are `w`, `w`'s bit 0 being `CW[0]`. -/
def decodeNat (w : Nat) : Except DecodeReject Instr :=
  if w < 2 ^ 30 then .ok (decode (BitVec.ofNat 30 w)) else .error .widerThanCommandWord

/-- The decoder's answer for an instruction whose lowest `nbits` bits are `w` and whose bits above them are 0 (log 7). -/
def decodeTableWord (nbits w : Nat) : Option Instr :=
  match decodeNat (w % 2 ^ nbits) with
  | .ok i => some i
  | .error _ => none

/-- The opcode of a command (30_encoding.md R72). -/
def Instr.opcode : Instr → Opcode
  | .nop _ => 0b000#3
  | .keyReset _ => 0b001#3
  | .keyNibble _ _ => 0b010#3
  | .encrypt _ => 0b011#3
  | .decrypt _ => 0b100#3
  | .reserved101 _ => 0b101#3
  | .reserved110 _ => 0b110#3
  | .reserved111 _ => 0b111#3

/-- The data field of a command (30_encoding.md R71). -/
def Instr.data : Instr → DataField
  | .nop ign => ign
  | .keyReset ign => ign
  | .keyNibble ign v => ign ++ v
  | .encrypt p => p
  | .decrypt c => c
  | .reserved101 ign => ign
  | .reserved110 ign => ign
  | .reserved111 ign => ign

/-- The word of a command: `{op, data}` (30_encoding.md R70). -/
def encode (i : Instr) : CmdWord := Machine.cmdWord i.opcode i.data

end Sys2Proof
end

