-- ==== Sys2Proof/Machine/State.lean ====
section
/-! DEFINITION. The state of the block, as plain data (10_state.md R20 to R28), and the state after reset (R36). -/

namespace Sys2Proof.Machine

/-- `FSM`, the controller state (10_state.md R22). The encoding 0b11 is no state, so it has no constructor
(30_encoding.md R77; log 4). -/
inductive Fsm where
  /-- no operation in progress. -/
  | idle
  /-- `encryption_fsm` is running. -/
  | enc
  /-- `decryption_fsm` is running. -/
  | dec
deriving DecidableEq, Repr

/-- `ERR`, the status of the most recently accepted command (10_state.md R27, 30_encoding.md R78). -/
inductive ErrCode where
  | ok
  | keyIncomplete
  | keyOverflow
  | illegalCmd
deriving DecidableEq, Repr

/-- The values on the input ports just before one rising edge (10_state.md R29). -/
structure Inputs where
  rst : Bool
  cmdValid : Bool
  cmdOp : Opcode
  cmdData : DataField
deriving DecidableEq, Repr

/-- The state: the tuple of 10_state.md R20, and the host's script. -/
structure State where
  /-- `FSM[1:0]` (10_state.md R22). -/
  fsm : Fsm
  /-- `RND[5:0]` (10_state.md R23): the round index, 0..55 (log 4). -/
  rnd : Fin 56
  /-- `STATE[26:0]` (10_state.md R21). -/
  block : Block
  /-- `KEY[2559:0]` (10_state.md R24). -/
  key : KeyStore
  /-- `KCNT[9:0]` (10_state.md R25): 0..640 (log 4). -/
  kcnt : Fin 641
  /-- `DONE` (10_state.md R26). -/
  done : Bool
  /-- `ERR[1:0]` (10_state.md R27). -/
  err : ErrCode
  /-- The model's own field (DESIGN CHOICE, log 1): what the host drives at each coming edge, the first entry being the
  values just before the next edge. After its last entry the host drives nothing. -/
  inputs : List Inputs
deriving DecidableEq, Repr

/-- Why the machine stops with a fault. The block has no such condition: an error is a rejected command, which is a
next state (60_exceptions.md R211, R218), and every operation completes (93_implementation_defined.md, "No behaviour of
the block is `stuck`"). So the type has no constructor, and nothing raises it. -/
inductive Fault where
deriving DecidableEq, Repr

/-- Why an instruction has no meaning. -/
inductive Refusal where
  /-- An arm of exec for an instruction not modelled yet, by its mnemonic. No arm of this model raises it. Safe. -/
  | notModelled (mnemonic : String)
deriving DecidableEq, Repr

/-- The reset state (10_state.md R36, 70_reset_and_hazards.md R240): every register at the value R36 gives.
`KEY` has no reset value there; DESIGN CHOICE 0, one value for every run (log 2). The script is empty (log 1). -/
def State.reset : State where
  fsm := .idle
  rnd := 0
  block := 0
  key := 0
  kcnt := 0
  done := false
  err := .ok
  inputs := []

end Sys2Proof.Machine
end

