-- ==== Sys2Proof/Machine/Ops.lean ====
section
/-! DEFINITION. The named operations over the registers and the key store. Every write of a register goes through one
of them. `raiseCmdError` is the block's only exception primitive (00_scope.md R9). -/

namespace Sys2Proof.Machine

/-! ### The key store (20_memory.md R50 to R53) -/

/-- `slot(n) = KEY[2559-4n : 2556-4n]` (20_memory.md R51), for n in 0..639. -/
def keySlot (key : KeyStore) (n : Nat) : Nibble := key.extractLsb' (2556 - 4 * n) 4

/-- `KeySlice(j, w) = KEY[2559-j : 2560-j-w]` (20_memory.md R53), for j + w ≤ 2560 (log 9). -/
def keySlice (key : KeyStore) (j w : Nat) : BitVec w := key.extractLsb' (2560 - j - w) w

/-- `KeyWriteNibble(n, v)`: `KEY[2559-4n : 2556-4n] <- v`, every other bit unchanged (20_memory.md R52), for n in
0..639 (log 9). -/
def keyWriteNibble (key : KeyStore) (n : Nat) (v : Nibble) : KeyStore :=
  (key &&& ~~~(0xF#2560 <<< (2556 - 4 * n))) ||| (v.setWidth 2560 <<< (2556 - 4 * n))

/-! ### Writing registers -/

/-- `ERR <- code` (10_state.md R27). -/
def State.setErr (s : State) (code : ErrCode) : State := { s with err := code }

/-- `KCNT <- n` (10_state.md R25). -/
def State.setKcnt (s : State) (n : Fin 641) : State := { s with kcnt := n }

/-- `KeyWriteNibble(KCNT, v)` on the machine's key store (40_key_expander_schedule.md R102). -/
def State.storeNibble (s : State) (v : Nibble) : State := { s with key := keyWriteNibble s.key s.kcnt.val v }

/-- `STATE <- b` (10_state.md R21). -/
def State.setBlock (s : State) (b : Block) : State := { s with block := b }

/-- `RND <- r` (10_state.md R23). -/
def State.setRnd (s : State) (r : Fin 56) : State := { s with rnd := r }

/-- `STATE <- b; RND <- r; FSM <- f; DONE <- 0`: the loads of an operation that starts (42_engines.md R172, R173). -/
def State.startOperation (s : State) (f : Fsm) (b : Block) (r : Fin 56) : State :=
  { s with block := b, rnd := r, fsm := f, done := false }

/-- `FSM <- IDLE; DONE <- 1`: the last round edge of an operation (42_engines.md R175, R176). -/
def State.finishOperation (s : State) : State := { s with fsm := .idle, done := true }

/-- The register loads of an edge with `rst == 1`: `KEY` is unchanged (70_reset_and_hazards.md R240). -/
def State.applyReset (s : State) : State :=
  { s with fsm := .idle, rnd := 0, block := 0, kcnt := 0, done := false, err := .ok }

/-- The host's script from the next edge on (log 1). -/
def State.setInputs (s : State) (ins : List Inputs) : State := { s with inputs := ins }

/-! ### The exception primitive -/

/-- `raise CmdError(code)`: the accepted command is rejected; `ERR <- code` and no other register changes
(60_exceptions.md R211). There is no trap entry and no return (R218, R219). -/
def raiseCmdError (code : ErrCode) (s : State) : Host.Outcome State Fault Refusal := .next (s.setErr code)

/-! ### The input ports -/

/-- The port values of a host that drives nothing: `rst = 0`, `cmd_valid = 0`. -/
def Inputs.quiet : Inputs := ⟨false, false, 0, 0⟩

/-- The port values of a host that presents the command word `w` (30_encoding.md R70). -/
def Inputs.present (w : CmdWord) : Inputs := ⟨false, true, w.extractLsb' 27 3, w.extractLsb' 0 27⟩

/-- The port values of a host that asserts `rst` and presents nothing. -/
def Inputs.reset : Inputs := ⟨true, false, 0, 0⟩

/-- `{cmd_op, cmd_data}` (10_state.md R35). -/
def Inputs.word (d : Inputs) : CmdWord := d.cmdOp ++ d.cmdData

/-- The port values just before the next edge: the script's first entry, and a quiet port after its end (log 1). -/
def State.nextInputs (s : State) : Inputs := s.inputs.headD Inputs.quiet

end Sys2Proof.Machine
end

