-- ==== Sys2Proof/Machine/Flags.lean ====
section
/-! DEFINITION. The status flags: the codes of 30_encoding.md R77 and R78, and the status outputs of 10_state.md R31. -/

namespace Sys2Proof.Machine

/-- The encoding of `FSM` (30_encoding.md R77). -/
def Fsm.code : Fsm → BitVec 2
  | .idle => 0b00#2
  | .enc => 0b01#2
  | .dec => 0b10#2

/-- The encoding of `ERR` (30_encoding.md R78). -/
def ErrCode.code : ErrCode → BitVec 2
  | .ok => 0#2
  | .keyIncomplete => 1#2
  | .keyOverflow => 2#2
  | .illegalCmd => 3#2

/-- `key_valid = (KCNT == 640)` (10_state.md R31). -/
def State.keyValid (s : State) : Bool := decide (s.kcnt = 640)

/-- `busy = (FSM != IDLE)` (10_state.md R31). -/
def State.busy (s : State) : Bool := decide (s.fsm ≠ .idle)

/-- `cmd_ready = (rst == 0) && (FSM == IDLE)` (10_state.md R31). -/
def State.cmdReady (s : State) (rst : Bool) : Bool := !rst && decide (s.fsm = .idle)

/-- A command is accepted at the edge: `rst == 0`, `cmd_valid == 1` and `FSM == IDLE` (10_state.md R35). -/
def State.accepts (s : State) (d : Inputs) : Bool := !d.rst && d.cmdValid && decide (s.fsm = .idle)

end Sys2Proof.Machine
end

