-- ==== Sys2Proof/Machine/EngineCommands.lean ====
section
/-! DEFINITION. The meanings of NOP, ENCRYPT, DECRYPT and the reserved opcodes (42_engines.md R171 to R174), as they
take effect at the accepting edge. The ignored bits have no effect (30_encoding.md R75). -/

namespace Sys2Proof.Machine

/-- NOP (42_engines.md R171): `ERR <- OK`. -/
def execNop (_ign : DataField) (s : State) : Host.Outcome State Fault Refusal := .next (s.setErr .ok)

/-- An operation's start, or KEY_INCOMPLETE unless `KCNT == 640` (42_engines.md R172, R173; 60_exceptions.md R212). -/
def startOrReject (f : Fsm) (b : Block) (r : Fin 56) (s : State) : Host.Outcome State Fault Refusal :=
  if s.kcnt ≠ 640 then raiseCmdError .keyIncomplete s
  else .next ((s.startOperation f b r).setErr .ok)

/-- ENCRYPT (42_engines.md R172): the forward rounds start at round 0. -/
def execEncrypt (p : Block) (s : State) : Host.Outcome State Fault Refusal := startOrReject .enc p 0 s

/-- DECRYPT (42_engines.md R173): the inverse rounds start at round 55. -/
def execDecrypt (c : Block) (s : State) : Host.Outcome State Fault Refusal := startOrReject .dec c 55 s

/-- Reserved opcode 0b101 (42_engines.md R174): `raise CmdError(ILLEGAL_CMD)`. -/
def execReserved101 (_ign : DataField) (s : State) : Host.Outcome State Fault Refusal := raiseCmdError .illegalCmd s

/-- Reserved opcode 0b110 (42_engines.md R174): `raise CmdError(ILLEGAL_CMD)`. -/
def execReserved110 (_ign : DataField) (s : State) : Host.Outcome State Fault Refusal := raiseCmdError .illegalCmd s

/-- Reserved opcode 0b111 (42_engines.md R174): `raise CmdError(ILLEGAL_CMD)`. -/
def execReserved111 (_ign : DataField) (s : State) : Host.Outcome State Fault Refusal := raiseCmdError .illegalCmd s

end Sys2Proof.Machine
end

