-- ==== Sys2Proof/Machine/KeyCommands.lean ====
section
/-! DEFINITION. The meanings of the key expander's commands (40_key_expander_schedule.md R101, R102), as they take
effect at the accepting edge. The ignored bits have no effect (30_encoding.md R75). -/

namespace Sys2Proof.Machine

/-- KEY_RESET (40_key_expander_schedule.md R101): `KCNT <- 0; ERR <- OK`. -/
def execKeyReset (_ign : DataField) (s : State) : Host.Outcome State Fault Refusal :=
  .next ((s.setKcnt 0).setErr .ok)

/-- KEY_NIBBLE (40_key_expander_schedule.md R102): KEY_OVERFLOW on a complete key, else the next slot is written. -/
def execKeyNibble (_ign : BitVec 23) (v : Nibble) (s : State) : Host.Outcome State Fault Refusal :=
  if s.kcnt = 640 then raiseCmdError .keyOverflow s
  else .next (((s.storeNibble v).setKcnt (s.kcnt + 1)).setErr .ok)

end Sys2Proof.Machine
end

