-- ==== Sys2Proof/Machine/Dispatch.lean ====
section
/-! DEFINITION. The dispatch of an accepted command (42_engines.md R187). Only an
accepting edge calls it (log 11). -/

namespace Sys2Proof.Machine

def exec (i : Instr) (s : State) : Host.Outcome State Fault Refusal :=
  match i with
  | .nop ign => Sys2Proof.Machine.execNop ign s
  | .keyReset ign => Sys2Proof.Machine.execKeyReset ign s
  | .keyNibble ign v => Sys2Proof.Machine.execKeyNibble ign v s
  | .encrypt p => Sys2Proof.Machine.execEncrypt p s
  | .decrypt c => Sys2Proof.Machine.execDecrypt c s
  | .reserved101 ign => Sys2Proof.Machine.execReserved101 ign s
  | .reserved110 ign => Sys2Proof.Machine.execReserved110 ign s
  | .reserved111 ign => Sys2Proof.Machine.execReserved111 ign s

end Sys2Proof.Machine
end

