-- ==== Sys2Proof/Machine/Datapath.lean ====
section
/-! DEFINITION. The round function (41_round_function.md): pure functions of a block and a round's subkeys. -/

namespace Sys2Proof.Machine

/-- The subkeys of one round (40_key_expander_schedule.md R104). -/
structure Subkeys where
  mixKey : MixKey
  selKey : SelKey
deriving DecidableEq, Repr

/-- The block after each of the three observable stages of a round (41_round_function.md R146). -/
structure Stages where
  s1 : Block
  s2 : Block
  s3 : Block
deriving DecidableEq, Repr

/-- `Mix(s, MK) = s ^ MK` (41_round_function.md R131). -/
def mix (s : Block) (mk : MixKey) : Block := s ^^^ mk

/-- `P`: `t<j> = s<(9*j) mod 26>` for j in 0..25, `t<26> = s<26>` (41_round_function.md R132). -/
def permP (s : Block) : Block := ofDoc 27 fun j => if j < 26 then s.getMsbD (9 * j % 26) else s.getMsbD 26

/-- `P^-1`: `s<i> = t<(3*i) mod 26>` for i in 0..25, `s<26> = t<26>` (41_round_function.md R134). -/
def permPinv (t : Block) : Block := ofDoc 27 fun i => if i < 26 then t.getMsbD (3 * i % 26) else t.getMsbD 26

/-- `Grp(s, g) = s[26-3g : 24-3g]`, for g in 0..8 (41_round_function.md R137). -/
def grp (s : Block) (g : Nat) : Group := s.extractLsb' (24 - 3 * g) 3

/-- The block with the nine groups `f 0 .. f 8`: position 3g + k is bit k of group g, so group 0 is `s[26:24]`
(41_round_function.md R137). -/
def ofGroups (f : Nat → Group) : Block := ofDoc 27 fun i => (f (i / 3)).getMsbD (i % 3)

/-- `Sel(PK, g) = PK[17-2g : 16-2g]`, for g in 0..8 (41_round_function.md R138). -/
def sel (pk : SelKey) (g : Nat) : Selector := pk.extractLsb' (16 - 2 * g) 2

/-- The group `{c0, c1, c2}` (41_round_function.md R137). -/
def groupOf (c0 c1 c2 : Bool) : Group := BitVec.ofBool c0 ++ BitVec.ofBool c1 ++ BitVec.ofBool c2

/-- `KeyedPerm(w, sel)` (41_round_function.md R139): the table of the selector bits `(a0, a1)` on `(c0, c1, c2)`. -/
def keyedPerm (w : Group) (a : Selector) : Group :=
  match a.getMsbD 0, a.getMsbD 1 with
  | false, false => groupOf (w.getMsbD 0) (w.getMsbD 1) (w.getMsbD 2)
  | false, true => groupOf (w.getMsbD 1) (w.getMsbD 0) (w.getMsbD 2)
  | true, false => groupOf (w.getMsbD 0) (w.getMsbD 2) (w.getMsbD 1)
  | true, true => groupOf (w.getMsbD 2) (w.getMsbD 1) (w.getMsbD 0)

/-- The table of `S` (41_round_function.md R142). -/
def sboxTable : List Group := [0, 1, 3, 6, 7, 4, 5, 2]

/-- The table of `S^-1` (41_round_function.md R143). -/
def sboxInvTable : List Group := [0, 1, 7, 2, 5, 6, 3, 4]

/-- `S(W)` (41_round_function.md R142). -/
def sbox (w : Group) : Group := sboxTable.getD w.toNat 0

/-- `Sinv(W)` (41_round_function.md R143). -/
def sboxInv (w : Group) : Group := sboxInvTable.getD w.toNat 0

/-- `Layer(s, PK)`: in each group the keyed permutation, then `S` (41_round_function.md R144). -/
def layer (s : Block) (pk : SelKey) : Block := ofGroups fun g => sbox (keyedPerm (grp s g) (sel pk g))

/-- `InvLayer(t, PK)`: in each group `S^-1`, then the keyed permutation (41_round_function.md R145). -/
def invLayer (t : Block) (pk : SelKey) : Block := ofGroups fun g => keyedPerm (sboxInv (grp t g)) (sel pk g)

/-- `FwdStages(s, MK, PK)` (41_round_function.md R146). -/
def fwdStages (s : Block) (k : Subkeys) : Stages :=
  { s1 := mix s k.mixKey
    s2 := permP (mix s k.mixKey)
    s3 := layer (permP (mix s k.mixKey)) k.selKey }

/-- `InvStages(s, MK, PK)` (41_round_function.md R146). -/
def invStages (s : Block) (k : Subkeys) : Stages :=
  { s1 := invLayer s k.selKey
    s2 := permPinv (invLayer s k.selKey)
    s3 := mix (permPinv (invLayer s k.selKey)) k.mixKey }

/-- `FwdRound(s, MK, PK) = Layer(P(Mix(s, MK)), PK)` (41_round_function.md R147). -/
def fwdRound (s : Block) (k : Subkeys) : Block := layer (permP (mix s k.mixKey)) k.selKey

/-- `InvRound(t, MK, PK) = Mix(Pinv(InvLayer(t, PK)), MK)` (41_round_function.md R148). -/
def invRound (t : Block) (k : Subkeys) : Block := mix (permPinv (invLayer t k.selKey)) k.mixKey

end Sys2Proof.Machine
end

