-- ==== Sys2Proof/Machine/KeySchedule.lean ====
section
/-! DEFINITION. The key expander and the key schedule (40_key_expander_schedule.md). -/

namespace Sys2Proof.Machine

/-- `ExpandKey(d)`: the nibbles `d_0, d_1, ...` put one after another, the first most significant, which for 640 nibbles
is the bus value `{d_0, d_1, ..., d_639}` (40_key_expander_schedule.md R100). -/
def expandKey (d : List Nibble) : KeyStore :=
  d.foldl (fun k v => (k <<< 4) ||| v.setWidth 2560) 0

/-- `RoundSubkeys(KEY, r) = (KeySlice(45r, 27), KeySlice(45r + 27, 18))`, for r in 0..55
(40_key_expander_schedule.md R104; log 9). -/
def roundSubkeys (key : KeyStore) (r : Nat) : Subkeys :=
  { mixKey := keySlice key (45 * r) 27
    selKey := keySlice key (45 * r + 27) 18 }

end Sys2Proof.Machine
end

