-- ==== Sys2Proof/Machine/Engines.lean ====
section
/-! DEFINITION. The engines: the round steps (42_engines.md R175, R176) and the transaction-level functions
(R178, R179). -/

namespace Sys2Proof.Machine

/-- `encryption_fsm`: one forward round (42_engines.md R175). -/
def encRound (s : State) : State :=
  let s' := s.setBlock (fwdRound s.block (roundSubkeys s.key s.rnd.val))
  if s.rnd = 55 then s'.finishOperation else s'.setRnd (s.rnd + 1)

/-- `decryption_fsm`: one inverse round (42_engines.md R176). -/
def decRound (s : State) : State :=
  let s' := s.setBlock (invRound s.block (roundSubkeys s.key s.rnd.val))
  if s.rnd = 0 then s'.finishOperation else s'.setRnd (s.rnd - 1)

/-- `x_r` of an encryption of `p`: the block after the forward rounds 0..r-1 (42_engines.md R178). -/
def encryptState (key : KeyStore) (p : Block) : Nat → Block
  | 0 => p
  | r + 1 => fwdRound (encryptState key p r) (roundSubkeys key r)

/-- `y_{56-k}` of a decryption of `c`: the block after the inverse rounds 55..56-k (42_engines.md R179). -/
def decryptState (key : KeyStore) (c : Block) : Nat → Block
  | 0 => c
  | k + 1 => invRound (decryptState key c k) (roundSubkeys key (55 - k))

/-- `Encrypt(p, KEY) = x_56` (42_engines.md R178). -/
def encrypt (p : Block) (key : KeyStore) : Block := encryptState key p 56

/-- `Decrypt(c, KEY) = y_0` (42_engines.md R179). -/
def decrypt (c : Block) (key : KeyStore) : Block := decryptState key c 56

end Sys2Proof.Machine
end

