-- ==== Sys2Proof/Machine/Controller.lean ====
section
/-! DEFINITION. The block's step function of a state and the input ports' values (42_engines.md R185). -/

namespace Sys2Proof.Machine

/-- `Step(σ, in)` (42_engines.md R185): reset first; then by `FSM` a command of a valid port, a forward round or an
inverse round (60_exceptions.md R217 gives the same order). States that I5 lets a model refuse run by the letter (log 5). -/
def edge (s : State) (d : Inputs) : Host.Outcome State Fault Refusal :=
  if d.rst then .next s.applyReset
  else
    match s.fsm with
    | .idle => if d.cmdValid then exec (decode d.word) s else .next s
    | .enc => .next (encRound s)
    | .dec => .next (decRound s)

/-- One edge with the script's next port values, which it takes off the script (log 1). -/
def stepScript (s : State) : Host.Outcome State Fault Refusal := edge (s.setInputs s.inputs.tail) s.nextInputs

/-- The state in which the next edge accepts the command whose lowest `nbits` bits are `w` and whose bits above them
are 0: the word stands on the port with `rst = 0` and `cmd_valid = 1`, in place of the script's first entry, and the
controller is in IDLE (log 3). A number that is no 30-bit word is no command: the port is quiet. -/
def presentNext (s : State) (nbits w : Nat) : State :=
  { s with
    fsm := .idle
    inputs := (if w % 2 ^ nbits < 2 ^ 30 then Inputs.present (BitVec.ofNat 30 (w % 2 ^ nbits)) else Inputs.quiet) ::
      s.inputs.tail }

end Sys2Proof.Machine
end

