-- ==== Sys2Proof/Machine/Step.lean ====
section
/-! DEFINITION. One step of the machine: one rising edge of `clk` (42_engines.md R185, log 1). -/

namespace Sys2Proof.Machine

/-- One rising edge, with the port values the host's script holds for it. -/
def step (s : State) : Host.Outcome State Fault Refusal := stepScript s

/-- `s` with a command word where the next edge takes one from: the command port (log 3). -/
def State.withFetchWord (s : State) (nbits w : Nat) : State := presentNext s nbits w

end Sys2Proof.Machine
end

