-- ==== Sys2Proof/WellFormed.lean ====
section
/-! DEFINITION. Which terms are well formed.
A term of Instr needs no check: every field has exactly the width 30_encoding.md R71 gives it, and R73 admits every
word. The checks are on the textual statements, whose operands are numbers of any size: the operand ranges of
30_encoding.md R79 and the key string of R80 and R81. -/

namespace Sys2Proof

/-- `v` in 0..15 (30_encoding.md R79). -/
def nibbleInRange (v : Nat) : Bool := decide (v < 2 ^ 4)

/-- `p` in 0..2^27-1 (30_encoding.md R79). -/
def blockInRange (p : Nat) : Bool := decide (p < 2 ^ 27)

/-- `w` in 0..2^30-1 (30_encoding.md R79). -/
def wordInRange (w : Nat) : Bool := decide (w < 2 ^ 30)

/-- A string of exactly 640 hex digits (30_encoding.md R80, R81). -/
def keyStringOk (h : List Char) : Bool :=
  decide (h.length = Config.keyNibbles) && (Machine.hexDigits? h).isSome

/-- The statement's operand is one the assembler takes (30_encoding.md R79, R81). -/
def AsmStmt.wellFormed : AsmStmt → Bool
  | .nop => true
  | .krst => true
  | .knib v => nibbleInRange v
  | .enc p => blockInRange p
  | .dec c => blockInRange c
  | .word w => wordInRange w
  | .key h => keyStringOk h
  | .wait => true
  | .read => true
  | .encw p => blockInRange p
  | .decw c => blockInRange c

/-- Every command term is well formed: its fields' types are the widths of 30_encoding.md R71. -/
def Instr.wellFormed : Instr → Bool
  | .nop _ => true
  | .keyReset _ => true
  | .keyNibble _ _ => true
  | .encrypt _ => true
  | .decrypt _ => true
  | .reserved101 _ => true
  | .reserved110 _ => true
  | .reserved111 _ => true

end Sys2Proof
end

