-- ==== Sys2Proof/Machine/Assembler.lean ====
section
/-! DEFINITION. The textual form of the command set (30_encoding.md R79 to R81): the text of a line, and what a
statement expands to. It stands outside the block (00_scope.md R4) and feeds the driver of Machine/Driver.lean. -/

namespace Sys2Proof.Machine

/-! ### Statements to host actions -/

/-- `KNIB v` with `CW[26:4] = 0` (30_encoding.md R79). -/
def knibWord (v : Nibble) : CmdWord := encode (.keyNibble 0 v)

/-- `KEY h`: `KRST` then `KNIB d_0 .. KNIB d_639` (30_encoding.md R80). -/
def keyCommands (ds : List Nibble) : List HostAction :=
  .command (encode (.keyReset 0)) :: ds.map fun d => .command (knibWord d)

/-- What a statement expands to (30_encoding.md R79, R80); a statement with an operand outside its range is rejected,
never truncated. -/
def assemble (a : AsmStmt) : Except AsmReject (List HostAction) :=
  match a with
  | .nop => .ok [.command (encode (.nop 0))]
  | .krst => .ok [.command (encode (.keyReset 0))]
  | .knib v => if nibbleInRange v then .ok [.command (knibWord (BitVec.ofNat 4 v))] else .error .operandOutOfRange
  | .enc p =>
    if blockInRange p then .ok [.command (encode (.encrypt (BitVec.ofNat 27 p)))] else .error .operandOutOfRange
  | .dec c =>
    if blockInRange c then .ok [.command (encode (.decrypt (BitVec.ofNat 27 c)))] else .error .operandOutOfRange
  | .word w => if wordInRange w then .ok [.command (BitVec.ofNat 30 w)] else .error .operandOutOfRange
  | .key h =>
    if keyStringOk h then .ok (keyCommands ((hexDigits? h).getD [])) else .error .malformedKey
  | .wait => .ok [.wait]
  | .read => .ok [.read]
  | .encw p =>
    if blockInRange p then .ok [.command (encode (.encrypt (BitVec.ofNat 27 p))), .wait, .read]
    else .error .operandOutOfRange
  | .decw c =>
    if blockInRange c then .ok [.command (encode (.decrypt (BitVec.ofNat 27 c))), .wait, .read]
    else .error .operandOutOfRange

/-- The host actions of a program: each statement's expansion in order; the first rejected statement rejects it. -/
def assembleProgram : List AsmStmt → Except AsmReject (List HostAction)
  | [] => .ok []
  | a :: as =>
    match assemble a, assembleProgram as with
    | .ok x, .ok y => .ok (x ++ y)
    | .error e, _ => .error e
    | .ok _, .error e => .error e

/-! ### Lines to statements (conventions R79 leaves open: log 8) -/

/-- The number with these digits, most significant first. -/
def digitsValue (base : Nat) (ds : List Nat) : Nat := ds.foldl (fun acc d => base * acc + d) 0

/-- A non-empty string of decimal digits. -/
def parseDecimal (cs : List Char) : Option Nat :=
  if cs.isEmpty then none
  else if cs.all Char.isDigit then some (digitsValue 10 (cs.map fun c => c.toNat - '0'.toNat)) else none

/-- A non-empty string of hex digits. -/
def parseHex (cs : List Char) : Option Nat :=
  if cs.isEmpty then none else (hexDigits? cs).map fun ds => digitsValue 16 (ds.map BitVec.toNat)

/-- Exactly 27 binary digits, most significant first (30_encoding.md R79). -/
def parseBinaryBlock (cs : List Char) : Option Nat :=
  if cs.length = 27 ∧ cs.all (fun c => c == '0' || c == '1') then
    some (digitsValue 2 (cs.map fun c => c.toNat - '0'.toNat))
  else none

/-- A number written `0x…` or in decimal (30_encoding.md R79). -/
def parseNumber : List Char → Option Nat
  | '0' :: 'x' :: cs => parseHex cs
  | cs => parseDecimal cs

/-- The operand of ENC and DEC: a number, or `0b` and exactly 27 binary digits (30_encoding.md R79). -/
def parseBlock : List Char → Option Nat
  | '0' :: 'b' :: cs => parseBinaryBlock cs
  | cs => parseNumber cs

/-- The words of a line: what stands before a `;` (30_encoding.md R79), cut at blanks and tabs. -/
def lineWords : List Char → List Char → List (List Char)
  | [], acc => if acc.isEmpty then [] else [acc.reverse]
  | c :: cs, acc =>
    if c = ';' then (if acc.isEmpty then [] else [acc.reverse])
    else if c = ' ' ∨ c = '\t' then (if acc.isEmpty then lineWords cs [] else acc.reverse :: lineWords cs [])
    else lineWords cs (c :: acc)

/-- An operand that must be readable as a number. -/
def withOperand (n : Option Nat) (k : Nat → AsmStmt) : Except AsmReject (Option AsmStmt) :=
  match n with
  | some v => .ok (some (k v))
  | none => .error .malformedOperand

/-- The statement a line's words make (30_encoding.md R79, R80); none for a line without a word. -/
def parseWords (ws : List (List Char)) : Except AsmReject (Option AsmStmt) :=
  match ws with
  | [] => .ok none
  | [m] =>
    if m = "NOP".toList then .ok (some .nop)
    else if m = "KRST".toList then .ok (some .krst)
    else if m = "WAIT".toList then .ok (some .wait)
    else if m = "READ".toList then .ok (some .read)
    else .error .noSuchStatement
  | [m, x] =>
    if m = "KNIB".toList then withOperand (parseNumber x) .knib
    else if m = "ENC".toList then withOperand (parseBlock x) .enc
    else if m = "DEC".toList then withOperand (parseBlock x) .dec
    else if m = ".word".toList then withOperand (parseNumber x) .word
    else if m = "KEY".toList then .ok (some (.key x))
    else if m = "ENCW".toList then withOperand (parseBlock x) .encw
    else if m = "DECW".toList then withOperand (parseBlock x) .decw
    else .error .noSuchStatement
  | _ => .error .noSuchStatement

/-- The statement of a line of text. -/
def parseLine (line : List Char) : Except AsmReject (Option AsmStmt) := parseWords (lineWords line [])

end Sys2Proof.Machine
end

