-- ==== Sys2Proof/Machine/Ports.lean ====
section
/-! DEFINITION. The output ports (10_state.md R30 to R32): functions of the state and of the input `rst`.
Nothing in the step reads them. -/

namespace Sys2Proof.Machine

/-- The output ports (10_state.md R30). -/
structure Outputs where
  cmdReady : Bool
  busy : Bool
  done : Bool
  keyValid : Bool
  errCode : BitVec 2
  dout : Block
  dbgActive : Bool
  dbgDir : Bool
  dbgRound : BitVec 6
  dbgS1 : Block
  dbgS2 : Block
  dbgS3 : Block
deriving DecidableEq, Repr

/-- The trace ports alone (10_state.md R32). -/
structure TracePorts where
  active : Bool
  dir : Bool
  round : BitVec 6
  stages : Stages
deriving DecidableEq, Repr

/-- The trace ports (10_state.md R32): the running round's stages; every port 0 in IDLE. -/
def State.tracePorts (s : State) : TracePorts :=
  match s.fsm with
  | .enc => ⟨true, false, BitVec.ofNat 6 s.rnd.val, fwdStages s.block (roundSubkeys s.key s.rnd.val)⟩
  | .dec => ⟨true, true, BitVec.ofNat 6 s.rnd.val, invStages s.block (roundSubkeys s.key s.rnd.val)⟩
  | .idle => ⟨false, false, 0, ⟨0, 0, 0⟩⟩

/-- All output ports (10_state.md R31, R32). -/
def State.outputs (s : State) (rst : Bool) : Outputs where
  cmdReady := s.cmdReady rst
  busy := s.busy
  done := s.done
  keyValid := s.keyValid
  errCode := s.err.code
  dout := s.block
  dbgActive := s.tracePorts.active
  dbgDir := s.tracePorts.dir
  dbgRound := s.tracePorts.round
  dbgS1 := s.tracePorts.stages.s1
  dbgS2 := s.tracePorts.stages.s2
  dbgS3 := s.tracePorts.stages.s3

/-- What a trace sink records at one edge (42_engines.md R184). -/
structure TraceEntry where
  round : BitVec 6
  s1 : Block
  s2 : Block
  s3 : Block
deriving DecidableEq, Repr

/-- The entry a sink records at an edge: at `rst == 0`, whenever `dbg_active == 1` (42_engines.md R184). -/
def State.traceEntry (s : State) (rst : Bool) : Option TraceEntry :=
  let o := s.outputs rst
  if !rst && o.dbgActive then some ⟨o.dbgRound, o.dbgS1, o.dbgS2, o.dbgS3⟩ else none

end Sys2Proof.Machine
end

