-- ==== Sys2Proof/Machine/Driver.lean ====
section
/-! DEFINITION. The host driver: how the host actions of 30_encoding.md R80 drive the ports, edge by edge
(10_state.md R35, 70_reset_and_hazards.md R245). It calls the same `edge` as the step does, with port values of its own
in place of the script's (log 1). -/

namespace Sys2Proof.Machine

/-- What `READ` samples: `dout`, `done`, `err_code` (30_encoding.md R80). -/
structure Sample where
  dout : Block
  done : Bool
  errCode : BitVec 2
deriving DecidableEq, Repr

/-- What driving the ports comes to: a state and the samples read so far, or the stop the block answered. -/
inductive Driven where
  | at (s : State) (samples : List Sample)
  | stopped
deriving DecidableEq, Repr

/-- `READ` (30_encoding.md R80), with `rst = 0`. -/
def readSample (s : State) : Sample :=
  let o := s.outputs false
  ⟨o.dout, o.done, o.errCode⟩

/-- `WAIT` (30_encoding.md R80): edges with no command presented, until one after which `busy == 0` (log 10). `fuel`
bounds the edges. -/
def waitIdle : Nat → State → Host.Outcome State Fault Refusal
  | 0, s => .next s
  | fuel + 1, s =>
    if s.busy then
      match edge s Inputs.quiet with
      | .next s' => waitIdle fuel s'
      | .fault r => .fault r
      | .refused r => .refused r
    else .next s

/-- A command held on the port until the edge that accepts it (70_reset_and_hazards.md R245). `fuel` bounds the edges
before that one. -/
def presentUntilAccepted (w : CmdWord) : Nat → State → Host.Outcome State Fault Refusal
  | 0, s => edge s (Inputs.present w)
  | fuel + 1, s =>
    if s.cmdReady false then edge s (Inputs.present w)
    else
      match edge s (Inputs.present w) with
      | .next s' => presentUntilAccepted w fuel s'
      | .fault r => .fault r
      | .refused r => .refused r

/-- One host action (30_encoding.md R80). An operation takes `LATENCY` = 56 edges, so 56 edges of waiting suffice. -/
def perform (a : HostAction) (d : Driven) : Driven :=
  match d with
  | .stopped => .stopped
  | .at s samples =>
    match a with
    | .read => .at s (samples ++ [readSample s])
    | .wait =>
      match waitIdle Config.latency s with
      | .next s' => .at s' samples
      | .fault _ => .stopped
      | .refused _ => .stopped
    | .command w =>
      match presentUntilAccepted w Config.latency s with
      | .next s' => .at s' samples
      | .fault _ => .stopped
      | .refused _ => .stopped

/-- A list of host actions, in order. -/
def performAll (actions : List HostAction) (d : Driven) : Driven := actions.foldl (fun d a => perform a d) d

end Sys2Proof.Machine
end

