-- ==== Sys2Proof/Safety.lean ====
section
/-! DEFINITION. The terms claims are made in: runs of edges, the reachable states of 10_state.md R33, what a trace sink
records, and states that differ only in key bits no output can show (10_state.md R34). -/

namespace Sys2Proof.Machine

/-- `n` edges. -/
def stepN : Nat → State → Host.Outcome State Fault Refusal
  | 0, s => .next s
  | n + 1, s =>
    match step s with
    | .next s' => stepN n s'
    | .fault r => .fault r
    | .refused r => .refused r

/-- The entries a trace sink records over the next `n` edges, in order (42_engines.md R184). -/
def traceN : Nat → State → List TraceEntry
  | 0, _ => []
  | n + 1, s =>
    (s.traceEntry s.nextInputs.rst).toList ++
      match step s with
      | .next s' => traceN n s'
      | .fault _ => []
      | .refused _ => []

/-- 10_state.md R33, every line of it (on the buses' codes and values), with two more facts of the reachable states:
`DONE` is 0 while an operation runs (R26), and in IDLE `RND` is 0 or 55 (R23) (log 13). -/
abbrev State.Inv (s : State) : Prop :=
  s.fsm.code ≠ 0b11#2 ∧
  s.kcnt.val ≤ 640 ∧
  (s.fsm = .enc → s.rnd.val ≤ 55 ∧ s.kcnt.val = 640) ∧
  (s.fsm = .dec → s.rnd.val ≤ 55 ∧ s.kcnt.val = 640) ∧
  (s.fsm = .idle → s.done = true → s.rnd.val = 55 ∨ s.rnd.val = 0) ∧
  (s.fsm ≠ .idle → s.done = false) ∧
  (s.fsm = .idle → s.rnd.val = 55 ∨ s.rnd.val = 0)

/-- The two states differ at most in key slots no operation can read: the slots not yet written since the last reset or
KEY_RESET (10_state.md R34), and slots 630..639, which the schedule never reads (40_key_expander_schedule.md R107). -/
def SameButUnreadKey (s t : State) : Prop :=
  t = { s with key := t.key } ∧ ∀ n, n < s.kcnt.val → n < 630 → keySlot s.key n = keySlot t.key n

end Sys2Proof.Machine
end

