-- ==== Sys2Proof/Certificates/Slice0/Obligations.lean ====
section
/-! DEFINITION. The statements about the block. Each docstring names the rule of spec/ it formalises; where the spec marks
the rule as its own inference ("derived"), or the statement rests on a log entry, the docstring says so.
Bus bit k of a vector is `getLsbD k`, document index i is `getMsbD i` (00_scope.md R8). -/

open Sys2Proof Sys2Proof.Machine

/-! ### Command words -/

/-- Words written out from 30_encoding.md R70 to R72 decode to the commands they stand for. -/
def Obligations.SpecWordsDecode : Prop :=
  decode 0b000000000000000000000000000000#30 = .nop 0 ∧
  decode 0b000111111111111111111111111111#30 = .nop 0x7FFFFFF#27 ∧
  decode 0b001000000000000000000000000000#30 = .keyReset 0 ∧
  decode 0b010000000000000000000000001010#30 = .keyNibble 0 0xA#4 ∧
  decode 0b010111111111111111111111110000#30 = .keyNibble 0x7FFFFF#23 0#4 ∧
  decode 0b011001001000110100010101100111#30 = .encrypt 0x1234567#27 ∧
  decode 0b100001100000110010100110110110#30 = .decrypt 0x18329B6#27 ∧
  decode 0b101000000000000000000000000000#30 = .reserved101 0 ∧
  decode 0b110000000000000000000000000000#30 = .reserved110 0 ∧
  decode 0b111111111111111111111111111111#30 = .reserved111 0x7FFFFFF#27

/-- Decoding the word of any command gives that command, with every operand bit and every ignored bit (that Instr keeps the
ignored bits is the model's choice, log 12). -/
def Obligations.DecodeOfEncode : Prop := ∀ i : Instr, i.wellFormed = true → decode (encode i) = i

/-- Encoding what any 30-bit word decodes to gives that word, so decoding loses no bit. The model's choice: it holds because
Instr keeps the ignored bits (log 12, a DESIGN CHOICE); the spec (30_encoding.md sections 1 and 2) says only that decoding is
total and chosen by the `op` field. -/
def Obligations.EncodeOfDecode : Prop := ∀ w : CmdWord, encode (decode w) = w

/-- The opcode map: what each value of the opcode field decodes to, with the operands read from the data field, and the
row's mask and match (30_encoding.md R71 and R72; the mask and match are the spec's inference). Every word lies in a row. -/
def Obligations.OpcodeMapSelectsCommand : Prop :=
  ∀ w : CmdWord,
    (w.extractLsb' 27 3 = 0b000#3 → w &&& 0x38000000#30 = 0x00000000#30 ∧ decode w = .nop (w.extractLsb' 0 27)) ∧
    (w.extractLsb' 27 3 = 0b001#3 → w &&& 0x38000000#30 = 0x08000000#30 ∧ decode w = .keyReset (w.extractLsb' 0 27)) ∧
    (w.extractLsb' 27 3 = 0b010#3 → w &&& 0x38000000#30 = 0x10000000#30 ∧ decode w = .keyNibble (w.extractLsb' 4 23) (w.extractLsb' 0 4)) ∧
    (w.extractLsb' 27 3 = 0b011#3 → w &&& 0x38000000#30 = 0x18000000#30 ∧ decode w = .encrypt (w.extractLsb' 0 27)) ∧
    (w.extractLsb' 27 3 = 0b100#3 → w &&& 0x38000000#30 = 0x20000000#30 ∧ decode w = .decrypt (w.extractLsb' 0 27)) ∧
    (w.extractLsb' 27 3 = 0b101#3 → w &&& 0x38000000#30 = 0x28000000#30 ∧ decode w = .reserved101 (w.extractLsb' 0 27)) ∧
    (w.extractLsb' 27 3 = 0b110#3 → w &&& 0x38000000#30 = 0x30000000#30 ∧ decode w = .reserved110 (w.extractLsb' 0 27)) ∧
    (w.extractLsb' 27 3 = 0b111#3 → w &&& 0x38000000#30 = 0x38000000#30 ∧ decode w = .reserved111 (w.extractLsb' 0 27)) ∧
    (w &&& 0x38000000#30 = 0x00000000#30 ∨ w &&& 0x38000000#30 = 0x08000000#30 ∨ w &&& 0x38000000#30 = 0x10000000#30 ∨
      w &&& 0x38000000#30 = 0x18000000#30 ∨ w &&& 0x38000000#30 = 0x20000000#30 ∨ w &&& 0x38000000#30 = 0x28000000#30 ∨
      w &&& 0x38000000#30 = 0x30000000#30 ∨ w &&& 0x38000000#30 = 0x38000000#30)

/-- 30_encoding.md R75: two words with the same opcode that is no ENCRYPT and no DECRYPT, and with the same low four bits
where it is KEY_NIBBLE, do the same to every state. -/
def Obligations.IgnoredBitsHaveNoEffect : Prop :=
  ∀ (w w' : CmdWord) (s : State),
    w.extractLsb' 27 3 = w'.extractLsb' 27 3 →
    w.extractLsb' 27 3 ≠ 0b011#3 → w.extractLsb' 27 3 ≠ 0b100#3 →
    (w.extractLsb' 27 3 = 0b010#3 → w.extractLsb' 0 4 = w'.extractLsb' 0 4) →
    exec (decode w) s = exec (decode w') s

/-! ### What each command does -/

/-- 42_engines.md R171: NOP writes `ERR <- OK` and changes nothing else. -/
def Obligations.NopOnlyClearsErr : Prop :=
  ∀ (ign : DataField) (s : State),
    encode (.nop ign) &&& 0x38000000#30 = 0x00000000#30 ∧
    exec (.nop ign) s = .next { s with err := .ok }

/-- 40_key_expander_schedule.md R101: KEY_RESET writes `KCNT <- 0`, `ERR <- OK` and changes nothing else;
`key_valid` is then 0. -/
def Obligations.KeyResetRestartsLoading : Prop :=
  ∀ (ign : DataField) (s : State),
    encode (.keyReset ign) &&& 0x38000000#30 = 0x08000000#30 ∧
    exec (.keyReset ign) s = .next { s with kcnt := 0, err := .ok } ∧
    ∀ rst, (State.outputs { s with kcnt := 0, err := .ok } rst).keyValid = false

/-- 40_key_expander_schedule.md R102, 60_exceptions.md R213: KEY_NIBBLE on a complete key reports KEY_OVERFLOW and changes
nothing else; otherwise it writes slot `KCNT`, counts up and reports OK, and changes nothing else. -/
def Obligations.KeyNibbleWritesSlotOrOverflows : Prop :=
  ∀ (ign : BitVec 23) (v : Nibble) (s : State),
    encode (.keyNibble ign v) &&& 0x38000000#30 = 0x10000000#30 ∧
    (encode (.keyNibble ign v)).extractLsb' 0 4 = v ∧
    (s.kcnt.val = 640 → exec (.keyNibble ign v) s = .next { s with err := .keyOverflow }) ∧
    (s.kcnt.val ≠ 640 → ∃ t, exec (.keyNibble ign v) s = .next t ∧
      t = { s with key := t.key, kcnt := t.kcnt, err := .ok } ∧
      t.kcnt.val = s.kcnt.val + 1 ∧
      (∀ j < 2560, t.key.getLsbD j =
        if 2556 - 4 * s.kcnt.val ≤ j ∧ j ≤ 2559 - 4 * s.kcnt.val then v.getLsbD (j - (2556 - 4 * s.kcnt.val))
        else s.key.getLsbD j) ∧
      ∀ rst, (t.outputs rst).keyValid = decide (s.kcnt.val = 639))

/-- 42_engines.md R172: ENCRYPT without a complete key reports KEY_INCOMPLETE and changes nothing else; with one it loads
the block and starts at round 0. -/
def Obligations.EncryptStartsOrRejects : Prop :=
  ∀ (p : Block) (s : State),
    encode (.encrypt p) &&& 0x38000000#30 = 0x18000000#30 ∧
    (encode (.encrypt p)).extractLsb' 0 27 = p ∧
    (s.kcnt.val ≠ 640 → exec (.encrypt p) s = .next { s with err := .keyIncomplete }) ∧
    (s.kcnt.val = 640 → ∃ t, exec (.encrypt p) s = .next t ∧
      t = { s with block := p, rnd := 0, fsm := .enc, done := false, err := .ok } ∧
      ∀ rst, (t.outputs rst).busy = true)

/-- 42_engines.md R173: DECRYPT without a complete key reports KEY_INCOMPLETE and changes nothing else; with one it loads
the block and starts at round 55. -/
def Obligations.DecryptStartsOrRejects : Prop :=
  ∀ (c : Block) (s : State),
    encode (.decrypt c) &&& 0x38000000#30 = 0x20000000#30 ∧
    (encode (.decrypt c)).extractLsb' 0 27 = c ∧
    (s.kcnt.val ≠ 640 → exec (.decrypt c) s = .next { s with err := .keyIncomplete }) ∧
    (s.kcnt.val = 640 → ∃ t, exec (.decrypt c) s = .next t ∧
      t = { s with block := c, rnd := 55, fsm := .dec, done := false, err := .ok } ∧
      ∀ rst, (t.outputs rst).busy = true)

/-- 42_engines.md R174, 60_exceptions.md R214: each reserved opcode writes `ERR <- ILLEGAL_CMD`, whatever its data bits and
the state, and changes nothing else. -/
def Obligations.ReservedOnlyReportsIllegal : Prop :=
  ∀ (ign : DataField) (s : State),
    (encode (.reserved101 ign) &&& 0x38000000#30 = 0x28000000#30 ∧
      exec (.reserved101 ign) s = .next { s with err := .illegalCmd }) ∧
    (encode (.reserved110 ign) &&& 0x38000000#30 = 0x30000000#30 ∧
      exec (.reserved110 ign) s = .next { s with err := .illegalCmd }) ∧
    (encode (.reserved111 ign) &&& 0x38000000#30 = 0x38000000#30 ∧
      exec (.reserved111 ign) s = .next { s with err := .illegalCmd })

/-! ### Rules over all commands and all edges -/

/-- The step is total: every edge of every state has a next state (42_engines.md, the inference of R185). -/
def Obligations.EveryStepAnswersNext : Prop := ∀ s : State, ∃ t, step s = .next t

/-- 60_exceptions.md R211: after the accepting edge of a rejected command only `ERR` has changed (and one entry of the
host's script is used up), and the block is ready for the next command. -/
def Obligations.RejectedCommandChangesOnlyErr : Prop :=
  ∀ s t : State, s.accepts s.nextInputs = true → step s = .next t → t.err ≠ .ok →
    t = { s with err := t.err, inputs := s.inputs.tail } ∧ (t.outputs false).cmdReady = true

/-- 10_state.md R27: every accepted command writes `ERR`, 0 when it takes effect and its code when it is rejected; round
edges and idle edges do not write it; reset writes 0; `err_code` carries the code. -/
def Obligations.ErrReportsLastAcceptedCommand : Prop :=
  (∀ s t : State, step s = .next t →
    t.err =
      if s.nextInputs.rst then .ok
      else if s.accepts s.nextInputs then
        (if s.nextInputs.cmdOp = 0b011#3 ∨ s.nextInputs.cmdOp = 0b100#3 then
          (if s.kcnt.val = 640 then .ok else .keyIncomplete)
        else if s.nextInputs.cmdOp = 0b010#3 then (if s.kcnt.val = 640 then .keyOverflow else .ok)
        else if 5 ≤ s.nextInputs.cmdOp.toNat then .illegalCmd
        else .ok)
      else s.err) ∧
  ∀ (s : State) (rst : Bool), (s.outputs rst).errCode =
    match s.err with
    | .ok => 0#2
    | .keyIncomplete => 1#2
    | .keyOverflow => 2#2
    | .illegalCmd => 3#2

/-- `DONE` is set by the last round edge, cleared by the accepting edge of an operation that starts and by reset, and
unchanged otherwise (10_state.md section 1, the sentence on `DONE`'s writers in R26). -/
def Obligations.DoneFollowsOperations : Prop :=
  ∀ s t : State, step s = .next t →
    t.done =
      if s.nextInputs.rst then false
      else match s.fsm with
        | .idle =>
          if s.nextInputs.cmdValid = true ∧ (s.nextInputs.cmdOp = 0b011#3 ∨ s.nextInputs.cmdOp = 0b100#3) ∧
            s.kcnt.val = 640 then false else s.done
        | .enc => if s.rnd.val = 55 then true else s.done
        | .dec => if s.rnd.val = 0 then true else s.done

/-- `KEY` changes only at the accepting edge of a KEY_NIBBLE on an incomplete key (10_state.md section 1, R24 "written only
by KEY_NIBBLE"; not even reset writes it). -/
def Obligations.KeyChangesOnlyByKeyNibble : Prop :=
  ∀ s t : State, step s = .next t → t.key ≠ s.key →
    s.accepts s.nextInputs = true ∧ s.nextInputs.cmdOp = 0b010#3 ∧ s.kcnt.val ≠ 640

/-- In IDLE, every edge without reset that is not the start of an operation leaves `STATE` and `DONE` as they are: a
result stays on `dout` through NOP, KEY_RESET, KEY_NIBBLE, reserved and rejected commands (42_engines.md, the inference
of R183). -/
def Obligations.ResultStaysUntilNextOperation : Prop :=
  ∀ s t : State, s.fsm = .idle → s.nextInputs.rst = false →
    ¬(s.nextInputs.cmdValid = true ∧ (s.nextInputs.cmdOp = 0b011#3 ∨ s.nextInputs.cmdOp = 0b100#3) ∧ s.kcnt.val = 640) →
    step s = .next t →
    t.fsm = .idle ∧ t.block = s.block ∧ t.done = s.done ∧ t.rnd = s.rnd ∧
    ∀ rst, (t.outputs rst).dout = (s.outputs rst).dout ∧ (t.outputs rst).done = (s.outputs rst).done

/-! ### Single edges -/

/-- A step runs the decoded command: in IDLE, with `rst = 0`, `cmd_valid = 1` and the word `w` on the port, the step is the
meaning of what `w` decodes to, on the state with that entry taken off the host's script (log 1). -/
def Obligations.StepRunsDecodedCommand : Prop :=
  ∀ (s : State) (w : CmdWord) (rest : List Inputs) (i : Instr), s.fsm = .idle →
    s.inputs = ⟨false, true, w.extractLsb' 27 3, w.extractLsb' 0 27⟩ :: rest →
    decode w = i → i.wellFormed = true →
    step s = exec i { s with inputs := rest }

/-- The state `withFetchWord` makes runs exactly that word as its next step (the model's choice, log 3). -/
def Obligations.FetchWordRunsNext : Prop :=
  ∀ (s : State) (w : CmdWord),
    step (s.withFetchWord 32 w.toNat) = exec (decode w) { s with fsm := .idle, inputs := s.inputs.tail } ∧
    decodeTableWord 32 w.toNat = some (decode w)

/-- 10_state.md R35: acceptance is `cmd_valid && cmd_ready`; where the port's command is not accepted, its opcode and data
have no effect, and nothing of it is kept. -/
def Obligations.OnlyAcceptedCommandsMatter : Prop :=
  ∀ (s : State) (d : Inputs) (rest : List Inputs),
    (s.accepts d = (d.cmdValid && (s.outputs d.rst).cmdReady)) ∧
    (s.accepts d = (!d.rst && d.cmdValid && decide (s.fsm = .idle))) ∧
    (s.accepts d = true → step { s with inputs := d :: rest } =
      exec (decode (cmdWord d.cmdOp d.cmdData)) { s with inputs := rest }) ∧
    (s.accepts d = false → ∀ (op : Opcode) (data : DataField),
      step { s with inputs := d :: rest } = step { s with inputs := ⟨d.rst, d.cmdValid, op, data⟩ :: rest })

/-- In IDLE, without reset and without a valid command, the edge changes no register (42_engines.md, the inference of
R186). -/
def Obligations.IdleEdgeChangesNoRegister : Prop :=
  ∀ s : State, s.fsm = .idle → s.nextInputs.rst = false → s.nextInputs.cmdValid = false →
    step s = .next { s with inputs := s.inputs.tail }

/-- 42_engines.md R175: one forward round at every edge in ENC without reset, whatever the command port carries. -/
def Obligations.ForwardRoundEdge : Prop :=
  ∀ s : State, s.fsm = .enc → s.nextInputs.rst = false →
    ∃ t, step s = .next t ∧
      t.block = fwdRound s.block (roundSubkeys s.key s.rnd.val) ∧
      (s.rnd.val = 55 → t.fsm = .idle ∧ t.done = true ∧ t.rnd = s.rnd) ∧
      (s.rnd.val ≠ 55 → t.fsm = .enc ∧ t.done = s.done ∧ t.rnd.val = s.rnd.val + 1) ∧
      t.key = s.key ∧ t.kcnt = s.kcnt ∧ t.err = s.err ∧ t.inputs = s.inputs.tail ∧
      (s.outputs false).cmdReady = false

/-- 42_engines.md R176: one inverse round at every edge in DEC without reset, whatever the command port carries. -/
def Obligations.InverseRoundEdge : Prop :=
  ∀ s : State, s.fsm = .dec → s.nextInputs.rst = false →
    ∃ t, step s = .next t ∧
      t.block = invRound s.block (roundSubkeys s.key s.rnd.val) ∧
      (s.rnd.val = 0 → t.fsm = .idle ∧ t.done = true ∧ t.rnd = s.rnd) ∧
      (s.rnd.val ≠ 0 → t.fsm = .dec ∧ t.done = s.done ∧ t.rnd.val = s.rnd.val - 1) ∧
      t.key = s.key ∧ t.kcnt = s.kcnt ∧ t.err = s.err ∧ t.inputs = s.inputs.tail ∧
      (s.outputs false).cmdReady = false

/-- 42_engines.md R177: while an operation runs, the command port has no effect on any state or output. -/
def Obligations.BusyPortIsIgnored : Prop :=
  ∀ (s : State) (d d' : Inputs) (rest : List Inputs), s.fsm ≠ .idle → d.rst = false → d'.rst = false →
    step { s with inputs := d :: rest } = step { s with inputs := d' :: rest } ∧
    ∀ rst, State.outputs { s with inputs := d :: rest } rst = State.outputs { s with inputs := d' :: rest } rst

/-- 70_reset_and_hazards.md R240, 10_state.md R36: at every edge with `rst == 1`, in whatever state and with whatever
command on the port, the registers take their reset values and `KEY` is unchanged. -/
def Obligations.ResetEdgeLoadsResetValues : Prop :=
  ∀ s : State, s.nextInputs.rst = true →
    step s = .next { fsm := .idle, rnd := 0, block := 0, key := s.key, kcnt := 0, done := false, err := .ok,
                     inputs := s.inputs.tail }

/-- 10_state.md R36: the reset state's registers. (`KEY` has no reset value there: log 2. The empty script is the
model's: log 1.) -/
def Obligations.ResetStateValues : Prop :=
  State.reset.fsm = .idle ∧ State.reset.rnd.val = 0 ∧ State.reset.block = 0#27 ∧ State.reset.kcnt.val = 0 ∧
  State.reset.done = false ∧ State.reset.err = .ok ∧
  (State.reset.outputs false).cmdReady = true ∧ (State.reset.outputs false).busy = false ∧
  (State.reset.outputs false).done = false ∧ (State.reset.outputs false).keyValid = false ∧
  (State.reset.outputs false).errCode = 0#2 ∧ (State.reset.outputs false).dout = 0#27 ∧
  (State.reset.outputs false).dbgActive = false ∧ (State.reset.outputs false).dbgRound = 0#6 ∧
  (State.reset.outputs false).dbgS1 = 0#27 ∧ (State.reset.outputs false).dbgS2 = 0#27 ∧
  (State.reset.outputs false).dbgS3 = 0#27

/-! ### Output ports -/

/-- 10_state.md R31: the status and result outputs. -/
def Obligations.StatusOutputsFollowState : Prop :=
  ∀ (s : State) (rst : Bool),
    (s.outputs rst).cmdReady = (!rst && decide (s.fsm = .idle)) ∧
    (s.outputs rst).busy = !decide (s.fsm = .idle) ∧
    (s.outputs rst).done = s.done ∧
    (s.outputs rst).keyValid = decide (s.kcnt.val = 640) ∧
    (s.outputs rst).errCode = s.err.code ∧
    (s.outputs rst).dout = s.block

/-- 10_state.md R32: the trace outputs: the running round's stages in ENC and DEC, every port 0 in IDLE. -/
def Obligations.TraceOutputsFollowState : Prop :=
  ∀ (s : State) (rst : Bool),
    (s.fsm = .enc →
      (s.outputs rst).dbgActive = true ∧ (s.outputs rst).dbgDir = false ∧ (s.outputs rst).dbgRound.toNat = s.rnd.val ∧
      (s.outputs rst).dbgS1 = (fwdStages s.block (roundSubkeys s.key s.rnd.val)).s1 ∧
      (s.outputs rst).dbgS2 = (fwdStages s.block (roundSubkeys s.key s.rnd.val)).s2 ∧
      (s.outputs rst).dbgS3 = (fwdStages s.block (roundSubkeys s.key s.rnd.val)).s3) ∧
    (s.fsm = .dec →
      (s.outputs rst).dbgActive = true ∧ (s.outputs rst).dbgDir = true ∧ (s.outputs rst).dbgRound.toNat = s.rnd.val ∧
      (s.outputs rst).dbgS1 = (invStages s.block (roundSubkeys s.key s.rnd.val)).s1 ∧
      (s.outputs rst).dbgS2 = (invStages s.block (roundSubkeys s.key s.rnd.val)).s2 ∧
      (s.outputs rst).dbgS3 = (invStages s.block (roundSubkeys s.key s.rnd.val)).s3) ∧
    (s.fsm = .idle →
      (s.outputs rst).dbgActive = false ∧ (s.outputs rst).dbgDir = false ∧ (s.outputs rst).dbgRound = 0#6 ∧
      (s.outputs rst).dbgS1 = 0#27 ∧ (s.outputs rst).dbgS2 = 0#27 ∧ (s.outputs rst).dbgS3 = 0#27)

/-! ### Invariant -/

/-- The reset state meets the invariant of the reachable states (10_state.md, the inference of R33). -/
def Obligations.ReachableInvHoldsAtReset : Prop := State.reset.Inv

/-- Every edge, whatever the host drives, keeps the invariant of the reachable states (10_state.md, the inference of
R33). -/
def Obligations.ReachableInvKeptByStep : Prop := ∀ s t : State, s.Inv → step s = .next t → t.Inv

/-! ### Whole operations -/

/-- An accepted ENCRYPT with a complete key: after edge e+k (k in 0..55) the block is in ENC at round k with `STATE = x_k`,
and after edge e+56 it is in IDLE with `RND = 55`, `DONE = 1` and `STATE = Encrypt(p, KEY)`; `KEY`, `KCNT` and `ERR` hold
throughout (42_engines.md, the inference of R180). -/
def Obligations.EncryptionRunsFiftySixEdges : Prop :=
  ∀ (s : State) (p : Block) (rest : List Inputs), s.fsm = .idle → s.kcnt.val = 640 →
    s.inputs = ⟨false, true, 0b011#3, p⟩ :: rest → (∀ d ∈ rest.take 56, d.rst = false) →
    (∀ k (hk : k < 56), stepN (k + 1) s = .next
      { s with fsm := .enc, rnd := ⟨k, hk⟩, block := encryptState s.key p k, done := false, err := .ok,
               inputs := rest.drop k }) ∧
    stepN 57 s = .next
      { s with fsm := .idle, rnd := 55, block := encrypt p s.key, done := true, err := .ok, inputs := rest.drop 56 }

/-- An accepted DECRYPT with a complete key: after edge e+k (k in 0..55) the block is in DEC at round 55-k with
`STATE = y_{56-k}`, and after edge e+56 it is in IDLE with `RND = 0`, `DONE = 1` and `STATE = Decrypt(c, KEY)`; `KEY`, `KCNT`
and `ERR` hold throughout (42_engines.md, the inference of R180). -/
def Obligations.DecryptionRunsFiftySixEdges : Prop :=
  ∀ (s : State) (c : Block) (rest : List Inputs), s.fsm = .idle → s.kcnt.val = 640 →
    s.inputs = ⟨false, true, 0b100#3, c⟩ :: rest → (∀ d ∈ rest.take 56, d.rst = false) →
    (∀ k (_ : k < 56), stepN (k + 1) s = .next
      { s with fsm := .dec, rnd := ⟨55 - k, by omega⟩, block := decryptState s.key c k, done := false, err := .ok,
               inputs := rest.drop k }) ∧
    stepN 57 s = .next
      { s with fsm := .idle, rnd := 0, block := decrypt c s.key, done := true, err := .ok, inputs := rest.drop 56 }

/-- 42_engines.md R178, R179: `Encrypt` is the end of the 56 forward rounds from the plaintext, `Decrypt` the end of the 56
inverse rounds from the ciphertext, with the same subkeys in reverse order. -/
def Obligations.CipherIsFiftySixRounds : Prop :=
  ∀ (key : KeyStore) (x y : Nat → Block),
    ((∀ r < 56, x (r + 1) = fwdRound (x r) (roundSubkeys key r)) → encrypt (x 0) key = x 56) ∧
    ((∀ r < 56, y r = invRound (y (r + 1)) (roundSubkeys key r)) → decrypt (y 56) key = y 0)

/-- The cipher's round-trip contract, both ways, for every block and every content of the key store (42_engines.md R181,
the second equation an inference of the spec). -/
def Obligations.DecryptInvertsEncrypt : Prop :=
  ∀ (b : Block) (key : KeyStore), decrypt (encrypt b key) key = b ∧ encrypt (decrypt b key) key = b

/-- What a trace sink records over an operation: the 56 rounds' stages, in traversal order, for both directions
(42_engines.md, the inference of R184). -/
def Obligations.TraceRecordsEveryRound : Prop :=
  ∀ (s : State) (b : Block) (rest : List Inputs), s.fsm = .idle → s.kcnt.val = 640 →
    (∀ d ∈ rest.take 56, d.rst = false) →
    traceN 57 { s with inputs := ⟨false, true, 0b011#3, b⟩ :: rest } =
      (List.range 56).map (fun r =>
        let st := fwdStages (encryptState s.key b r) (roundSubkeys s.key r)
        ⟨BitVec.ofNat 6 r, st.s1, st.s2, st.s3⟩) ∧
    traceN 57 { s with inputs := ⟨false, true, 0b100#3, b⟩ :: rest } =
      (List.range 56).map (fun k =>
        let st := invStages (decryptState s.key b k) (roundSubkeys s.key (55 - k))
        ⟨BitVec.ofNat 6 (55 - k), st.s1, st.s2, st.s3⟩)

/-! ### The key -/

/-- 20_memory.md R52: `KeyWriteNibble(n, v)` writes `KEY[2559-4n : 2556-4n]` and leaves every other bit. -/
def Obligations.KeyWriteTouchesOnlyItsSlot : Prop :=
  ∀ (key : KeyStore) (n : Nat) (v : Nibble), n < 640 → ∀ j < 2560,
    (keyWriteNibble key n v).getLsbD j =
      if 2556 - 4 * n ≤ j ∧ j ≤ 2559 - 4 * n then v.getLsbD (j - (2556 - 4 * n)) else key.getLsbD j

/-- A slot reads back what was written to it, most significant bit at document index 4n, and every other slot reads as
before (20_memory.md sections 1 and 2). -/
def Obligations.SlotReadsBackWhatWasWritten : Prop :=
  ∀ (key : KeyStore) (n : Nat) (v : Nibble), n < 640 →
    keySlot (keyWriteNibble key n v) n = v ∧
    (∀ b < 4, (keyWriteNibble key n v).getMsbD (4 * n + b) = v.getLsbD (3 - b)) ∧
    ∀ m < 640, m ≠ n → keySlot (keyWriteNibble key n v) m = keySlot key m

/-- 20_memory.md R53: `KeySlice(j, w)` is `KEY[2559-j : 2560-j-w]`, the w bits from document index j on, first one most
significant. -/
def Obligations.KeySliceReadsDocumentOrder : Prop :=
  ∀ (key : KeyStore) (j w : Nat), j + w ≤ 2560 → ∀ i < w,
    (keySlice key j w).getMsbD i = key.getMsbD (j + i) ∧
    (keySlice key j w).getLsbD i = key.getLsbD (2560 - j - w + i)

/-- The expansion function of 40_key_expander_schedule.md R100: `ExpandKey(d)<4n + b> = d_n[3-b]` for the 640 nibbles `d`. -/
def Obligations.ExpandKeyPutsNibbleBitsInOrder : Prop :=
  ∀ d : List Nibble, d.length = 640 → ∀ n < 640, ∀ b < 4,
    (expandKey d).getMsbD (4 * n + b) = (d.getD n 0).getLsbD (3 - b)

/-- Loading a key: from `KCNT = 0`, 640 accepted KEY_NIBBLE commands, with any ignored bits, leave `KEY = ExpandKey(d)` of
their nibbles in order, `KCNT = 640` and `ERR = OK`, and change nothing else, whatever `KEY` held before
(40_key_expander_schedule.md, the inference of R100). -/
def Obligations.KeyLoadYieldsExpandedKey : Prop :=
  ∀ (s : State) (load rest : List Inputs), s.fsm = .idle → s.kcnt.val = 0 → load.length = 640 →
    (∀ d ∈ load, d.rst = false ∧ d.cmdValid = true ∧ d.cmdOp = 0b010#3) → s.inputs = load ++ rest →
    stepN 640 s = .next
      { s with key := expandKey (load.map fun d => d.cmdData.extractLsb' 0 4), kcnt := 640, err := .ok, inputs := rest }

/-- 40_key_expander_schedule.md R104: the subkeys of round r in document order and as bus slices. -/
def Obligations.RoundSubkeysAreKeySlices : Prop :=
  ∀ (key : KeyStore) (r : Nat), r < 56 →
    (∀ i < 27, (roundSubkeys key r).mixKey.getMsbD i = key.getMsbD (45 * r + i)) ∧
    (∀ j < 18, (roundSubkeys key r).selKey.getMsbD j = key.getMsbD (45 * r + 27 + j)) ∧
    (∀ k < 27, (roundSubkeys key r).mixKey.getLsbD k = key.getLsbD (2533 - 45 * r + k)) ∧
    (∀ k < 18, (roundSubkeys key r).selKey.getLsbD k = key.getLsbD (2515 - 45 * r + k))

/-- Two keys that agree on the first 2520 document indices encrypt and decrypt alike: the last 40 bits affect no output
(40_key_expander_schedule.md R107, its inference). -/
def Obligations.LastFortyKeyBitsUnread : Prop :=
  ∀ (key key' : KeyStore), (∀ j < 2520, key.getMsbD j = key'.getMsbD j) →
    ∀ b : Block, encrypt b key = encrypt b key' ∧ decrypt b key = decrypt b key'

/-- Key bits no operation can read stay unobservable: two reachable states that differ at most in stale key slots and in
slots 630..639 show the same outputs now, and after any edge they differ in no more than that (10_state.md, the inference
of R34; 40_key_expander_schedule.md R107). -/
def Obligations.UnreadKeyIsUnobservable : Prop :=
  ∀ s t : State, s.Inv → SameButUnreadKey s t →
    (∀ rst, s.outputs rst = t.outputs rst) ∧
    ∀ s', step s = .next s' → ∃ t', step t = .next t' ∧ SameButUnreadKey s' t'

/-! ### The round function -/

/-- 41_round_function.md R131: `Mix` is bitwise exclusive or and undoes itself. -/
def Obligations.MixIsXorAndSelfInverse : Prop :=
  ∀ (s : Block) (mk : MixKey),
    (∀ i < 27, (mix s mk).getMsbD i = (s.getMsbD i ^^ mk.getMsbD i)) ∧
    mix s 0 = s ∧ mix (mix s mk) mk = s ∧ mix s s = 0

/-- 41_round_function.md R132, R134: `P` takes position i to (3i) mod 26 and keeps position 26; `P^-1` reads position i from
(3i) mod 26. -/
def Obligations.FixedPermutationMovesPositions : Prop :=
  ∀ s : Block,
    (∀ i < 26, (permP s).getMsbD (3 * i % 26) = s.getMsbD i) ∧ (permP s).getMsbD 26 = s.getMsbD 26 ∧
    (∀ i < 26, (permPinv s).getMsbD i = s.getMsbD (3 * i % 26)) ∧ (permPinv s).getMsbD 26 = s.getMsbD 26

/-- `P` and `P^-1` are inverse to each other, and `P` has order 3 (41_round_function.md, the inference of R136). -/
def Obligations.FixedPermutationInverseAndOrder : Prop :=
  ∀ s : Block, permPinv (permP s) = s ∧ permP (permPinv s) = s ∧ permP (permP (permP s)) = s ∧
    permPinv s = permP (permP s)

/-- The bus wiring of `P` and `P^-1`: the source bits from output bit 26 down to output bit 0 (41_round_function.md, the
inferences of R133 and R135). -/
def Obligations.FixedPermutationWiring : Prop :=
  ∀ x : Block, ∀ k < 27,
    (permP x).getLsbD (26 - k) = x.getLsbD
      ([26, 17, 8, 25, 16, 7, 24, 15, 6, 23, 14, 5, 22, 13, 4, 21, 12, 3, 20, 11, 2, 19, 10, 1, 18, 9, 0].getD k 0) ∧
    (permPinv x).getLsbD (26 - k) = x.getLsbD
      ([26, 23, 20, 17, 14, 11, 8, 5, 2, 25, 22, 19, 16, 13, 10, 7, 4, 1, 24, 21, 18, 15, 12, 9, 6, 3, 0].getD k 0)

/-- 41_round_function.md R139, R141: the four rows of the keyed permutation on `(c0, c1, c2) = (w[2], w[1], w[0])`, and that
each is its own inverse. -/
def Obligations.KeyedPermutationTable : Prop :=
  ∀ (w : Group) (a : Selector),
    (a = 0b00#2 → keyedPerm w a = w) ∧
    (a = 0b01#2 → (keyedPerm w a).getMsbD 0 = w.getMsbD 1 ∧ (keyedPerm w a).getMsbD 1 = w.getMsbD 0 ∧
      (keyedPerm w a).getMsbD 2 = w.getMsbD 2) ∧
    (a = 0b10#2 → (keyedPerm w a).getMsbD 0 = w.getMsbD 0 ∧ (keyedPerm w a).getMsbD 1 = w.getMsbD 2 ∧
      (keyedPerm w a).getMsbD 2 = w.getMsbD 1) ∧
    (a = 0b11#2 → (keyedPerm w a).getMsbD 0 = w.getMsbD 2 ∧ (keyedPerm w a).getMsbD 1 = w.getMsbD 1 ∧
      (keyedPerm w a).getMsbD 2 = w.getMsbD 0) ∧
    keyedPerm (keyedPerm w a) a = w

/-- The tables of `S` and `S^-1` (41_round_function.md section 4, the tables of R142 and R143), and that they are inverse to
each other, which R143 marks as the spec's own inference. -/
def Obligations.SubstitutionTables : Prop :=
  (List.range 8).map (fun w => (sbox (BitVec.ofNat 3 w)).toNat) = [0, 1, 3, 6, 7, 4, 5, 2] ∧
  (List.range 8).map (fun w => (sboxInv (BitVec.ofNat 3 w)).toNat) = [0, 1, 7, 2, 5, 6, 3, 4] ∧
  ∀ w : Group, sboxInv (sbox w) = w ∧ sbox (sboxInv w) = w

/-- Group g is the bus field `s[26-3g : 24-3g]`, its selector `PK[17-2g : 16-2g]`; each layer acts on each group by itself
(41_round_function.md sections 3 and 5, as R137, R138, R144 and R145 give it); and the inverse layer undoes the forward one,
which R145 marks as the spec's own inference. -/
def Obligations.LayersActGroupByGroup : Prop :=
  ∀ (s : Block) (pk : SelKey) (g : Nat), g < 9 →
    (layer s pk).extractLsb' (24 - 3 * g) 3 =
      sbox (keyedPerm (s.extractLsb' (24 - 3 * g) 3) (pk.extractLsb' (16 - 2 * g) 2)) ∧
    (invLayer s pk).extractLsb' (24 - 3 * g) 3 =
      keyedPerm (sboxInv (s.extractLsb' (24 - 3 * g) 3)) (pk.extractLsb' (16 - 2 * g) 2) ∧
    invLayer (layer s pk) pk = s

/-- 41_round_function.md R146: the three observable stages of a round in each direction; the third is the round's result
(R147, R148). -/
def Obligations.StagesComposeRounds : Prop :=
  ∀ (s : Block) (k : Subkeys),
    (fwdStages s k).s1 = mix s k.mixKey ∧ (fwdStages s k).s2 = permP (fwdStages s k).s1 ∧
    (fwdStages s k).s3 = layer (fwdStages s k).s2 k.selKey ∧
    (invStages s k).s1 = invLayer s k.selKey ∧ (invStages s k).s2 = permPinv (invStages s k).s1 ∧
    (invStages s k).s3 = mix (invStages s k).s2 k.mixKey ∧
    fwdRound s k = (fwdStages s k).s3 ∧ invRound s k = (invStages s k).s3

/-- The inverse round undoes the forward round, and the forward round the inverse one, under every pair of subkeys
(41_round_function.md, the law of R148, an inference of the spec). -/
def Obligations.InverseRoundUndoesForwardRound : Prop :=
  ∀ (s : Block) (k : Subkeys), invRound (fwdRound s k) k = s ∧ fwdRound (invRound s k) k = s

/-! ### The textual form and the host driver -/

/-- 30_encoding.md R79: each statement's encoding, and that an operand outside its range is rejected, never truncated. -/
def Obligations.AssemblerEncodesOrRejects : Prop :=
  assemble .nop = .ok [.command 0x00000000#30] ∧
  assemble .krst = .ok [.command 0x08000000#30] ∧
  (∀ v, assemble (.knib v) =
    if v < 16 then .ok [.command (0x10000000#30 ||| BitVec.ofNat 30 v)] else .error .operandOutOfRange) ∧
  (∀ p, assemble (.enc p) =
    if p < 2 ^ 27 then .ok [.command (0x18000000#30 ||| BitVec.ofNat 30 p)] else .error .operandOutOfRange) ∧
  (∀ c, assemble (.dec c) =
    if c < 2 ^ 27 then .ok [.command (0x20000000#30 ||| BitVec.ofNat 30 c)] else .error .operandOutOfRange) ∧
  ∀ w, assemble (.word w) =
    if w < 2 ^ 30 then .ok [.command (BitVec.ofNat 30 w)] else .error .operandOutOfRange

/-- 30_encoding.md R80, R81: `KEY h` of exactly 640 hex digits is `KRST` and the 640 `KNIB d_n`; another string is rejected;
`ENCW` and `DECW` are `ENC` or `DEC`, `WAIT`, `READ`; the values of the hex digits. -/
def Obligations.PseudoInstructionsExpand : Prop :=
  (∀ (h : List Char) (ds : List Nibble), h.length = 640 → h.map hexDigit? = ds.map some →
    assemble (.key h) = .ok (.command 0x08000000#30 :: ds.map fun d => .command (0x10000000#30 ||| d.setWidth 30))) ∧
  (∀ h : List Char, (h.length ≠ 640 ∨ ∃ c ∈ h, hexDigit? c = none) → assemble (.key h) = .error .malformedKey) ∧
  assemble .wait = .ok [.wait] ∧ assemble .read = .ok [.read] ∧
  (∀ p, p < 2 ^ 27 → assemble (.encw p) = .ok [.command (0x18000000#30 ||| BitVec.ofNat 30 p), .wait, .read]) ∧
  (∀ c, c < 2 ^ 27 → assemble (.decw c) = .ok [.command (0x20000000#30 ||| BitVec.ofNat 30 c), .wait, .read]) ∧
  "0123456789".toList.map hexDigit? = [0, 1, 2, 3, 4, 5, 6, 7, 8, 9].map some ∧
  "abcdef".toList.map hexDigit? = [10, 11, 12, 13, 14, 15].map some ∧
  "ABCDEF".toList.map hexDigit? = [10, 11, 12, 13, 14, 15].map some

/-- The host's `ENCW p` and `DECW c` on an idle block with a complete key read `Encrypt(p, KEY)` and `Decrypt(c, KEY)` with
`done = 1` and `err_code = 0` (30_encoding.md section 4 with 42_engines.md section 4; the driver is log 10's). -/
def Obligations.HostReadsTheCipher : Prop :=
  ∀ (s : State) (b : Block) (samples : List Sample), s.fsm = .idle → s.kcnt.val = 640 →
    (∃ acts t, assemble (.encw b.toNat) = .ok acts ∧
      performAll acts (.at s samples) = .at t (samples ++ [⟨encrypt b s.key, true, 0#2⟩]) ∧
      t = { s with rnd := 55, block := encrypt b s.key, done := true, err := .ok }) ∧
    (∃ acts t, assemble (.decw b.toNat) = .ok acts ∧
      performAll acts (.at s samples) = .at t (samples ++ [⟨decrypt b s.key, true, 0#2⟩]) ∧
      t = { s with rnd := 0, block := decrypt b s.key, done := true, err := .ok })

/-- A host that encrypts a block and then decrypts the answer it read, on an idle block with a complete key, reads its own
block back (30_encoding.md section 4, 42_engines.md section 4; the driver is log 10's). -/
def Obligations.HostRoundTripReadsPlaintext : Prop :=
  ∀ (s : State) (p : Block), s.fsm = .idle → s.kcnt.val = 640 →
    ∃ c t acts acts', assemble (.encw p.toNat) = .ok acts ∧ assemble (.decw c.toNat) = .ok acts' ∧
      performAll acts (.at s []) = .at t [⟨c, true, 0#2⟩] ∧
      ∃ u, performAll acts' (.at t []) = .at u [⟨p, true, 0#2⟩]
end

