-- ==== Sys2Proof/Laws/Bits.lean ====
section
/-! SUPPORT. Document order: what a bit of `ofDoc`, of a block made of groups and of a group is. -/

namespace Sys2Proof.Machine

@[simp] theorem getMsbD_ofDoc (n : Nat) (f : Nat → Bool) (i : Nat) :
    (ofDoc n f).getMsbD i = (decide (i < n) && f i) := by
  induction n with
  | zero => simp [ofDoc]
  | succ n ih =>
    rw [ofDoc, BitVec.getMsbD_concat, ih]
    rcases Nat.lt_trichotomy i n with h | rfl | h
    · simp [h, Nat.lt_succ_of_lt h]
    · simp
    · simp [Nat.not_lt.mpr (Nat.le_of_lt h), Nat.not_lt.mpr (Nat.succ_le_of_lt h), Nat.ne_of_gt h]

theorem ofDoc_getMsbD {n : Nat} (v : BitVec n) : ofDoc n v.getMsbD = v := by
  refine BitVec.eq_of_getMsbD_eq fun i hi => ?_
  simp [hi]

/-- Position 3g + k of the block is bit k of group g. -/
theorem getMsbD_grp (s : Block) {g k : Nat} (hg : g < 9) (hk : k < 3) :
    (grp s g).getMsbD k = s.getMsbD (3 * g + k) := by
  have h : 27 - (24 - 3 * g + 3 - k) = 3 * g + k := by omega
  have h' : 24 - 3 * g + 3 - k ≤ 27 := by omega
  simp [grp, BitVec.getMsbD_extractLsb', hk, h, h']

theorem grp_ofGroups (f : Nat → Group) {g : Nat} (hg : g < 9) : grp (ofGroups f) g = f g := by
  refine BitVec.eq_of_getMsbD_eq fun k hk => ?_
  have hd : (3 * g + k) / 3 = g := by omega
  have hm : (3 * g + k) % 3 = k := by omega
  have hb : 3 * g + k < 27 := by omega
  simp [getMsbD_grp _ hg hk, ofGroups, hd, hm, hb]

/-- Two blocks with the same nine groups are equal. -/
theorem eq_of_grp_eq {s t : Block} (h : ∀ g < 9, grp s g = grp t g) : s = t := by
  refine BitVec.eq_of_getMsbD_eq fun i hi => ?_
  have hg : i / 3 < 9 := by omega
  have hk : i % 3 < 3 := by omega
  have hi3 : 3 * (i / 3) + i % 3 = i := by omega
  rw [← hi3, ← getMsbD_grp s hg hk, ← getMsbD_grp t hg hk, h _ hg]

/-- A position of `P`'s result. -/
theorem getMsbD_permP (s : Block) {j : Nat} (hj : j < 27) :
    (permP s).getMsbD j = if j < 26 then s.getMsbD (9 * j % 26) else s.getMsbD 26 := by
  simp [permP, hj]

/-- A position of `P^-1`'s result. -/
theorem getMsbD_permPinv (t : Block) {i : Nat} (hi : i < 27) :
    (permPinv t).getMsbD i = if i < 26 then t.getMsbD (3 * i % 26) else t.getMsbD 26 := by
  simp [permPinv, hi]

end Sys2Proof.Machine
end

