-- ==== Sys2Proof/Laws/Decode.lean ====
section
/-! SUPPORT. The fields of a word put together from its fields, and the opcode rows. -/

namespace Sys2Proof

/-- No two rows of the opcode map share a word. -/
theorem opcodeRows_disjoint :
    opcodeRows.Pairwise fun a b => a.pattern &&& (a.mask &&& b.mask) ≠ b.pattern &&& (a.mask &&& b.mask) := by
  decide

@[simp] theorem opField_cmdWord (op : Opcode) (d : DataField) : Machine.opField (Machine.cmdWord op d) = op :=
  BitVec.extractLsb'_append_eq_left

@[simp] theorem dataField_cmdWord (op : Opcode) (d : DataField) : Machine.dataField (Machine.cmdWord op d) = d :=
  BitVec.extractLsb'_append_eq_right

/-- A bit of a word made of fields. -/
theorem getLsbD_cmdWord (op : Opcode) (d : DataField) (k : Nat) :
    (Machine.cmdWord op d).getLsbD k = if k < 27 then d.getLsbD k else op.getLsbD (k - 27) :=
  BitVec.getLsbD_append

/-- A bit of the data field of KEY_NIBBLE. -/
theorem getLsbD_nibbleData (a : BitVec 23) (v : Nibble) (k : Nat) :
    (a ++ v : DataField).getLsbD k = if k < 4 then v.getLsbD k else a.getLsbD (k - 4) :=
  BitVec.getLsbD_append

/-- A word is its two fields. -/
theorem cmdWord_fields (w : CmdWord) : Machine.cmdWord (Machine.opField w) (Machine.dataField w) = w := by
  refine BitVec.eq_of_getLsbD_eq fun k hk => ?_
  rw [getLsbD_cmdWord]
  by_cases h : k < 27
  · simp [Machine.dataField, h]
  · have h3 : k - 27 < 3 := by omega
    have hk' : 27 + (k - 27) = k := by omega
    simp [Machine.opField, h, h3, hk']

/-- A word made of fields is its opcode in `CW[29:27]` and its data below. -/
theorem cmdWord_eq_or (op : Opcode) (d : DataField) :
    Machine.cmdWord op d = (op.setWidth 30 <<< 27) ||| d.setWidth 30 := by
  refine BitVec.eq_of_getLsbD_eq fun k hk => ?_
  rw [getLsbD_cmdWord, BitVec.getLsbD_or, BitVec.getLsbD_shiftLeft, BitVec.getLsbD_setWidth, BitVec.getLsbD_setWidth]
  by_cases h : k < 27
  · simp [h, hk]
  · have h' : k - 27 < 30 := by omega
    simp [h, hk, h', BitVec.getLsbD_of_ge d k (by omega)]

/-- A number below 2^n held on n bits and widened is that number. -/
theorem setWidth_ofNat_of_lt {n m x : Nat} (h : x < 2 ^ n) : (BitVec.ofNat n x).setWidth m = BitVec.ofNat m x := by
  apply BitVec.eq_of_toNat_eq
  rw [BitVec.toNat_setWidth, BitVec.toNat_ofNat, BitVec.toNat_ofNat, Nat.mod_eq_of_lt h]

/-- `CW[3:0]` of a word made of fields. -/
@[simp] theorem nibbleField_cmdWord (op : Opcode) (a : BitVec 23) (v : Nibble) :
    Machine.nibbleField (Machine.cmdWord op (a ++ v)) = v := by
  refine BitVec.eq_of_getLsbD_eq fun k hk => ?_
  have h : k < 27 := by omega
  rw [Machine.nibbleField, BitVec.getLsbD_extractLsb', Nat.zero_add, getLsbD_cmdWord, if_pos h, getLsbD_nibbleData]
  simp [hk]

/-- `CW[26:4]` of a word made of fields. -/
@[simp] theorem nibbleIgnored_cmdWord (op : Opcode) (a : BitVec 23) (v : Nibble) :
    Machine.nibbleIgnored (Machine.cmdWord op (a ++ v)) = a := by
  refine BitVec.eq_of_getLsbD_eq fun k hk => ?_
  have h : 4 + k < 27 := by omega
  rw [Machine.nibbleIgnored, BitVec.getLsbD_extractLsb', getLsbD_cmdWord, if_pos h, getLsbD_nibbleData]
  simp [hk]

/-- The data field is the two operands of KEY_NIBBLE. -/
theorem nibbleIgnored_append_nibbleField (w : CmdWord) :
    (Machine.nibbleIgnored w ++ Machine.nibbleField w : DataField) = Machine.dataField w := by
  refine BitVec.eq_of_getLsbD_eq fun k hk => ?_
  rw [getLsbD_nibbleData]
  by_cases h : k < 4
  · simp [Machine.nibbleField, Machine.dataField, h, hk]
  · have h' : k - 4 < 23 := by omega
    have hk' : 4 + (k - 4) = k := by omega
    simp [Machine.nibbleIgnored, Machine.dataField, h, h', hk', hk]

/-- The opcode field has eight values. -/
theorem opcode_values (op : Opcode) :
    op = 0b000#3 ∨ op = 0b001#3 ∨ op = 0b010#3 ∨ op = 0b011#3 ∨ op = 0b100#3 ∨ op = 0b101#3 ∨ op = 0b110#3 ∨
      op = 0b111#3 := by
  revert op; decide

/-! What a word decodes to, by its opcode field. -/

theorem decode_nop {w : CmdWord} (h : Machine.opField w = 0b000#3) :
    decode w = .nop (Machine.dataField w) := by
  unfold decode; rw [h]; rfl

theorem decode_keyReset {w : CmdWord} (h : Machine.opField w = 0b001#3) :
    decode w = .keyReset (Machine.dataField w) := by
  unfold decode; rw [h]; rfl

theorem decode_keyNibble {w : CmdWord} (h : Machine.opField w = 0b010#3) :
    decode w = .keyNibble (Machine.nibbleIgnored w) (Machine.nibbleField w) := by
  unfold decode; rw [h]; rfl

theorem decode_encrypt {w : CmdWord} (h : Machine.opField w = 0b011#3) :
    decode w = .encrypt (Machine.dataField w) := by
  unfold decode; rw [h]; rfl

theorem decode_decrypt {w : CmdWord} (h : Machine.opField w = 0b100#3) :
    decode w = .decrypt (Machine.dataField w) := by
  unfold decode; rw [h]; rfl

theorem decode_reserved101 {w : CmdWord} (h : Machine.opField w = 0b101#3) :
    decode w = .reserved101 (Machine.dataField w) := by
  unfold decode; rw [h]; rfl

theorem decode_reserved110 {w : CmdWord} (h : Machine.opField w = 0b110#3) :
    decode w = .reserved110 (Machine.dataField w) := by
  unfold decode; rw [h]; rfl

theorem decode_reserved111 {w : CmdWord} (h : Machine.opField w = 0b111#3) :
    decode w = .reserved111 (Machine.dataField w) := by
  unfold decode; rw [h]; rfl

end Sys2Proof
end

