-- ==== Sys2Proof/Laws/State.lean ====
section
/-! SUPPORT. What each update of Machine/Ops.lean leaves in each field of State. -/

namespace Sys2Proof.Machine

variable (s : State)

@[simp] theorem State.setErr_fsm (c : ErrCode) : (s.setErr c).fsm = s.fsm := rfl
@[simp] theorem State.setErr_rnd (c : ErrCode) : (s.setErr c).rnd = s.rnd := rfl
@[simp] theorem State.setErr_block (c : ErrCode) : (s.setErr c).block = s.block := rfl
@[simp] theorem State.setErr_key (c : ErrCode) : (s.setErr c).key = s.key := rfl
@[simp] theorem State.setErr_kcnt (c : ErrCode) : (s.setErr c).kcnt = s.kcnt := rfl
@[simp] theorem State.setErr_done (c : ErrCode) : (s.setErr c).done = s.done := rfl
@[simp] theorem State.setErr_err (c : ErrCode) : (s.setErr c).err = c := rfl
@[simp] theorem State.setErr_inputs (c : ErrCode) : (s.setErr c).inputs = s.inputs := rfl

@[simp] theorem State.setKcnt_fsm (n : Fin 641) : (s.setKcnt n).fsm = s.fsm := rfl
@[simp] theorem State.setKcnt_rnd (n : Fin 641) : (s.setKcnt n).rnd = s.rnd := rfl
@[simp] theorem State.setKcnt_block (n : Fin 641) : (s.setKcnt n).block = s.block := rfl
@[simp] theorem State.setKcnt_key (n : Fin 641) : (s.setKcnt n).key = s.key := rfl
@[simp] theorem State.setKcnt_kcnt (n : Fin 641) : (s.setKcnt n).kcnt = n := rfl
@[simp] theorem State.setKcnt_done (n : Fin 641) : (s.setKcnt n).done = s.done := rfl
@[simp] theorem State.setKcnt_err (n : Fin 641) : (s.setKcnt n).err = s.err := rfl
@[simp] theorem State.setKcnt_inputs (n : Fin 641) : (s.setKcnt n).inputs = s.inputs := rfl

@[simp] theorem State.storeNibble_fsm (v : Nibble) : (s.storeNibble v).fsm = s.fsm := rfl
@[simp] theorem State.storeNibble_rnd (v : Nibble) : (s.storeNibble v).rnd = s.rnd := rfl
@[simp] theorem State.storeNibble_block (v : Nibble) : (s.storeNibble v).block = s.block := rfl
@[simp] theorem State.storeNibble_key (v : Nibble) : (s.storeNibble v).key = keyWriteNibble s.key s.kcnt.val v := rfl
@[simp] theorem State.storeNibble_kcnt (v : Nibble) : (s.storeNibble v).kcnt = s.kcnt := rfl
@[simp] theorem State.storeNibble_done (v : Nibble) : (s.storeNibble v).done = s.done := rfl
@[simp] theorem State.storeNibble_err (v : Nibble) : (s.storeNibble v).err = s.err := rfl
@[simp] theorem State.storeNibble_inputs (v : Nibble) : (s.storeNibble v).inputs = s.inputs := rfl

@[simp] theorem State.setBlock_fsm (b : Block) : (s.setBlock b).fsm = s.fsm := rfl
@[simp] theorem State.setBlock_rnd (b : Block) : (s.setBlock b).rnd = s.rnd := rfl
@[simp] theorem State.setBlock_block (b : Block) : (s.setBlock b).block = b := rfl
@[simp] theorem State.setBlock_key (b : Block) : (s.setBlock b).key = s.key := rfl
@[simp] theorem State.setBlock_kcnt (b : Block) : (s.setBlock b).kcnt = s.kcnt := rfl
@[simp] theorem State.setBlock_done (b : Block) : (s.setBlock b).done = s.done := rfl
@[simp] theorem State.setBlock_err (b : Block) : (s.setBlock b).err = s.err := rfl
@[simp] theorem State.setBlock_inputs (b : Block) : (s.setBlock b).inputs = s.inputs := rfl

@[simp] theorem State.setRnd_fsm (r : Fin 56) : (s.setRnd r).fsm = s.fsm := rfl
@[simp] theorem State.setRnd_rnd (r : Fin 56) : (s.setRnd r).rnd = r := rfl
@[simp] theorem State.setRnd_block (r : Fin 56) : (s.setRnd r).block = s.block := rfl
@[simp] theorem State.setRnd_key (r : Fin 56) : (s.setRnd r).key = s.key := rfl
@[simp] theorem State.setRnd_kcnt (r : Fin 56) : (s.setRnd r).kcnt = s.kcnt := rfl
@[simp] theorem State.setRnd_done (r : Fin 56) : (s.setRnd r).done = s.done := rfl
@[simp] theorem State.setRnd_err (r : Fin 56) : (s.setRnd r).err = s.err := rfl
@[simp] theorem State.setRnd_inputs (r : Fin 56) : (s.setRnd r).inputs = s.inputs := rfl

@[simp] theorem State.startOperation_fsm (f : Fsm) (b : Block) (r : Fin 56) : (s.startOperation f b r).fsm = f := rfl
@[simp] theorem State.startOperation_rnd (f : Fsm) (b : Block) (r : Fin 56) : (s.startOperation f b r).rnd = r := rfl
@[simp] theorem State.startOperation_block (f : Fsm) (b : Block) (r : Fin 56) : (s.startOperation f b r).block = b := rfl
@[simp] theorem State.startOperation_key (f : Fsm) (b : Block) (r : Fin 56) : (s.startOperation f b r).key = s.key := rfl
@[simp] theorem State.startOperation_kcnt (f : Fsm) (b : Block) (r : Fin 56) : (s.startOperation f b r).kcnt = s.kcnt := rfl
@[simp] theorem State.startOperation_done (f : Fsm) (b : Block) (r : Fin 56) : (s.startOperation f b r).done = false := rfl
@[simp] theorem State.startOperation_err (f : Fsm) (b : Block) (r : Fin 56) : (s.startOperation f b r).err = s.err := rfl
@[simp] theorem State.startOperation_inputs (f : Fsm) (b : Block) (r : Fin 56) : (s.startOperation f b r).inputs = s.inputs := rfl

@[simp] theorem State.finishOperation_fsm : (s.finishOperation).fsm = .idle := rfl
@[simp] theorem State.finishOperation_rnd : (s.finishOperation).rnd = s.rnd := rfl
@[simp] theorem State.finishOperation_block : (s.finishOperation).block = s.block := rfl
@[simp] theorem State.finishOperation_key : (s.finishOperation).key = s.key := rfl
@[simp] theorem State.finishOperation_kcnt : (s.finishOperation).kcnt = s.kcnt := rfl
@[simp] theorem State.finishOperation_done : (s.finishOperation).done = true := rfl
@[simp] theorem State.finishOperation_err : (s.finishOperation).err = s.err := rfl
@[simp] theorem State.finishOperation_inputs : (s.finishOperation).inputs = s.inputs := rfl

@[simp] theorem State.applyReset_fsm : (s.applyReset).fsm = .idle := rfl
@[simp] theorem State.applyReset_rnd : (s.applyReset).rnd = 0 := rfl
@[simp] theorem State.applyReset_block : (s.applyReset).block = 0 := rfl
@[simp] theorem State.applyReset_key : (s.applyReset).key = s.key := rfl
@[simp] theorem State.applyReset_kcnt : (s.applyReset).kcnt = 0 := rfl
@[simp] theorem State.applyReset_done : (s.applyReset).done = false := rfl
@[simp] theorem State.applyReset_err : (s.applyReset).err = .ok := rfl
@[simp] theorem State.applyReset_inputs : (s.applyReset).inputs = s.inputs := rfl

@[simp] theorem State.setInputs_fsm (l : List Inputs) : (s.setInputs l).fsm = s.fsm := rfl
@[simp] theorem State.setInputs_rnd (l : List Inputs) : (s.setInputs l).rnd = s.rnd := rfl
@[simp] theorem State.setInputs_block (l : List Inputs) : (s.setInputs l).block = s.block := rfl
@[simp] theorem State.setInputs_key (l : List Inputs) : (s.setInputs l).key = s.key := rfl
@[simp] theorem State.setInputs_kcnt (l : List Inputs) : (s.setInputs l).kcnt = s.kcnt := rfl
@[simp] theorem State.setInputs_done (l : List Inputs) : (s.setInputs l).done = s.done := rfl
@[simp] theorem State.setInputs_err (l : List Inputs) : (s.setInputs l).err = s.err := rfl
@[simp] theorem State.setInputs_inputs (l : List Inputs) : (s.setInputs l).inputs = l := rfl

end Sys2Proof.Machine
end

