-- ==== Sys2Proof/Laws/Exec.lean ====
section
/-! SUPPORT. What the shared operations under the meanings can answer, said once each. -/

namespace Sys2Proof.Machine

/-- A rejection answers the state with `ERR` written, and nothing else. -/
@[simp] theorem raiseCmdError_eq (code : ErrCode) (s : State) : raiseCmdError code s = .next (s.setErr code) := rfl

/-- An operation's command either is rejected or loads its operation. -/
theorem startOrReject_cases (f : Fsm) (b : Block) (r : Fin 56) (s : State) :
    (s.kcnt ≠ 640 ∧ startOrReject f b r s = .next (s.setErr .keyIncomplete)) ∨
    (s.kcnt = 640 ∧ startOrReject f b r s = .next ((s.startOperation f b r).setErr .ok)) := by
  by_cases h : s.kcnt = 640
  · exact .inr ⟨h, by simp [startOrReject, h]⟩
  · exact .inl ⟨h, by simp [startOrReject, h]⟩

/-- A key nibble either is rejected or written. -/
theorem execKeyNibble_cases (ign : BitVec 23) (v : Nibble) (s : State) :
    (s.kcnt = 640 ∧ execKeyNibble ign v s = .next (s.setErr .keyOverflow)) ∨
    (s.kcnt ≠ 640 ∧ execKeyNibble ign v s = .next (((s.storeNibble v).setKcnt (s.kcnt + 1)).setErr .ok)) := by
  by_cases h : s.kcnt = 640
  · exact .inl ⟨h, by simp [execKeyNibble, h]⟩
  · exact .inr ⟨h, by simp [execKeyNibble, h]⟩

/-- Everything a command can do: write `ERR` alone, restart the key, write a nibble, or start an operation. -/
theorem exec_cases (i : Instr) (s : State) :
    (∃ c, exec i s = .next (s.setErr c)) ∨
    exec i s = .next ((s.setKcnt 0).setErr .ok) ∨
    (∃ v, s.kcnt ≠ 640 ∧ exec i s = .next (((s.storeNibble v).setKcnt (s.kcnt + 1)).setErr .ok)) ∨
    (∃ b, s.kcnt = 640 ∧ exec i s = .next ((s.startOperation .enc b 0).setErr .ok)) ∨
    (∃ b, s.kcnt = 640 ∧ exec i s = .next ((s.startOperation .dec b 55).setErr .ok)) := by
  cases i with
  | nop ign => exact .inl ⟨.ok, rfl⟩
  | keyReset ign => exact .inr (.inl rfl)
  | keyNibble ign v =>
    rcases execKeyNibble_cases ign v s with ⟨_, h⟩ | ⟨hk, h⟩
    · exact .inl ⟨_, h⟩
    · exact .inr (.inr (.inl ⟨v, hk, h⟩))
  | encrypt p =>
    rcases startOrReject_cases .enc p 0 s with ⟨_, h⟩ | ⟨hk, h⟩
    · exact .inl ⟨_, h⟩
    · exact .inr (.inr (.inr (.inl ⟨p, hk, h⟩)))
  | decrypt c =>
    rcases startOrReject_cases .dec c 55 s with ⟨_, h⟩ | ⟨hk, h⟩
    · exact .inl ⟨_, h⟩
    · exact .inr (.inr (.inr (.inr ⟨c, hk, h⟩)))
  | reserved101 ign => exact .inl ⟨.illegalCmd, rfl⟩
  | reserved110 ign => exact .inl ⟨.illegalCmd, rfl⟩
  | reserved111 ign => exact .inl ⟨.illegalCmd, rfl⟩

/-- The counter's value counts up where it is not at its end. -/
theorem kcnt_add_one_val {k : Fin 641} (h : k ≠ 640) : (k + 1).val = k.val + 1 := by
  have hk : k.val ≠ 640 := fun e => h (Fin.ext e)
  rw [Fin.val_add_one_of_lt (by rw [Fin.lt_def]; simp; omega)]

/-- The word on a port has the port's opcode and data as its fields. -/
@[simp] theorem opField_word (d : Inputs) : opField d.word = d.cmdOp := opField_cmdWord _ _

@[simp] theorem dataField_word (d : Inputs) : dataField d.word = d.cmdData := dataField_cmdWord _ _

/-- What a command word does, by its opcode field. -/
theorem exec_decode (w : CmdWord) (s : State) :
    exec (decode w) s =
      if opField w = 0b000#3 then .next (s.setErr .ok)
      else if opField w = 0b001#3 then .next ((s.setKcnt 0).setErr .ok)
      else if opField w = 0b010#3 then
        (if s.kcnt = 640 then .next (s.setErr .keyOverflow)
        else .next (((s.storeNibble (nibbleField w)).setKcnt (s.kcnt + 1)).setErr .ok))
      else if opField w = 0b011#3 then
        (if s.kcnt = 640 then .next ((s.startOperation .enc (dataField w) 0).setErr .ok)
        else .next (s.setErr .keyIncomplete))
      else if opField w = 0b100#3 then
        (if s.kcnt = 640 then .next ((s.startOperation .dec (dataField w) 55).setErr .ok)
        else .next (s.setErr .keyIncomplete))
      else .next (s.setErr .illegalCmd) := by
  rcases opcode_values (opField w) with h | h | h | h | h | h | h | h
  · rw [decode_nop h, h]; rfl
  · rw [decode_keyReset h, h]; rfl
  · rw [decode_keyNibble h, h]; rfl
  · rw [decode_encrypt h, h]
    rcases startOrReject_cases .enc (dataField w) 0 s with ⟨hk, he⟩ | ⟨hk, he⟩ <;> simpa [hk, exec, execEncrypt] using he
  · rw [decode_decrypt h, h]
    rcases startOrReject_cases .dec (dataField w) 55 s with ⟨hk, he⟩ | ⟨hk, he⟩ <;> simpa [hk, exec, execDecrypt] using he
  · rw [decode_reserved101 h, h]; rfl
  · rw [decode_reserved110 h, h]; rfl
  · rw [decode_reserved111 h, h]; rfl

end Sys2Proof.Machine
end

