-- ==== Sys2Proof/Laws/KeyStore.lean ====
section
/-! SUPPORT. The key store's primitives, bit by bit. -/

namespace Sys2Proof.Machine

/-- The four lowest bits of the store, and no others. -/
theorem getLsbD_nibbleMask (k : Nat) : (0xF#2560).getLsbD k = decide (k < 4) := by
  rw [BitVec.getLsbD_ofNat]
  by_cases h : k < 4
  · interval_cases k <;> decide
  · have h16 : 15 < 2 ^ k := Nat.lt_of_lt_of_le (by decide : 15 < 2 ^ 4) (Nat.pow_le_pow_right (by decide) (by omega))
    simp [h, Nat.testBit_lt_two_pow h16]

/-- What `keyWriteNibble` does to every bus bit. -/
theorem getLsbD_keyWriteNibble (key : KeyStore) {n : Nat} (v : Nibble) (hn : n < 640) (j : Nat) :
    (keyWriteNibble key n v).getLsbD j =
      if 2556 - 4 * n ≤ j ∧ j < 2560 - 4 * n then v.getLsbD (j - (2556 - 4 * n)) else key.getLsbD j := by
  by_cases hj : j < 2560
  · rw [keyWriteNibble, BitVec.getLsbD_or, BitVec.getLsbD_and, BitVec.getLsbD_not, BitVec.getLsbD_shiftLeft,
      BitVec.getLsbD_shiftLeft, getLsbD_nibbleMask, BitVec.getLsbD_setWidth]
    by_cases hlo : 2556 - 4 * n ≤ j
    · by_cases hhi : j < 2560 - 4 * n
      · have h4 : j - (2556 - 4 * n) < 4 := by omega
        have hlt : ¬j < 2556 - 4 * n := by omega
        have hb : j - (2556 - 4 * n) < 2560 := by omega
        simp [hj, hlo, hhi, h4, hb, hlt]
      · have h4 : 4 ≤ j - (2556 - 4 * n) := by omega
        simp [hj, hlo, hhi, BitVec.getLsbD_of_ge _ _ h4, Nat.not_lt.mpr h4]
    · have hlt : j < 2556 - 4 * n := by omega
      simp [hj, hlo, hlt]
  · have hj' : 2560 ≤ j := Nat.not_lt.mp hj
    rw [if_neg (by omega), BitVec.getLsbD_of_ge _ _ hj', BitVec.getLsbD_of_ge _ _ hj']

/-- A bit of a slot. -/
theorem getLsbD_keySlot (key : KeyStore) (n k : Nat) :
    (keySlot key n).getLsbD k = (decide (k < 4) && key.getLsbD (2556 - 4 * n + k)) := by
  simp [keySlot, BitVec.getLsbD_extractLsb']

/-- A slice read in document order. -/
theorem getMsbD_keySlice (key : KeyStore) {j w : Nat} (h : j + w ≤ 2560) (i : Nat) :
    (keySlice key j w).getMsbD i = (decide (i < w) && key.getMsbD (j + i)) := by
  by_cases hi : i < w
  · have h1 : 2560 - j - w + w - i ≤ 2560 := by omega
    have h2 : 2560 - (2560 - j - w + w - i) = j + i := by omega
    simp [keySlice, BitVec.getMsbD_extractLsb', hi, h1, h2]
  · simp [keySlice, BitVec.getMsbD_extractLsb', hi]

/-- Two key stores with the same 640 slots are equal. -/
theorem eq_of_keySlot_eq {a b : KeyStore} (h : ∀ n < 640, keySlot a n = keySlot b n) : a = b := by
  refine BitVec.eq_of_getLsbD_eq fun j hj => ?_
  have h2 := congrArg (fun v => v.getLsbD (j % 4)) (h (639 - j / 4) (by omega))
  have h4 : j % 4 < 4 := Nat.mod_lt _ (by decide)
  have e : 2556 - 4 * (639 - j / 4) + j % 4 = j := by omega
  simp only [getLsbD_keySlot, h4, e, decide_true, Bool.true_and] at h2
  exact h2

/-- The subkeys of a round are made of the key bits of document indices 45r .. 45r+44 alone. -/
theorem roundSubkeys_congr {a b : KeyStore} {r : Nat} (hr : r < 56)
    (h : ∀ j, 45 * r ≤ j → j < 45 * r + 45 → a.getMsbD j = b.getMsbD j) : roundSubkeys a r = roundSubkeys b r := by
  unfold roundSubkeys
  congr 1 <;> refine BitVec.eq_of_getMsbD_eq fun i hi => ?_ <;>
    rw [getMsbD_keySlice _ (by omega), getMsbD_keySlice _ (by omega), h _ (by omega) (by omega)]

end Sys2Proof.Machine
end

