-- ==== Sys2Proof/Laws/PerInstr.lean ====
section
/-! SUPPORT. Families of statements about every instruction as syntax, one lemma for each constructor. -/

namespace Sys2Proof.Laws

/-- The opcode row (30_encoding.md R72) an instruction's word lies in: its match value. -/
def rowMatch : Instr → CmdWord
  | .nop _ => 0x00000000#30
  | .keyReset _ => 0x08000000#30
  | .keyNibble _ _ => 0x10000000#30
  | .encrypt _ => 0x18000000#30
  | .decrypt _ => 0x20000000#30
  | .reserved101 _ => 0x28000000#30
  | .reserved110 _ => 0x30000000#30
  | .reserved111 _ => 0x38000000#30

/-- The mask of every row keeps the opcode field of a word made of fields, and nothing else. -/
theorem mask_cmdWord (op : Opcode) (d : DataField) :
    Machine.cmdWord op d &&& 0x38000000#30 = Machine.cmdWord op 0#27 := by
  refine BitVec.eq_of_getLsbD_eq fun k hk => ?_
  rw [BitVec.getLsbD_and, getLsbD_cmdWord, getLsbD_cmdWord]
  interval_cases k <;> simp

/-- The word of an instruction lies in its row of the opcode map. -/
def EncodedInRow.Statement (i : Instr) : Prop := encode i &&& 0x38000000#30 = rowMatch i

theorem EncodedInRow.nop (ign : DataField) : EncodedInRow.Statement (.nop ign) :=
  (mask_cmdWord 0b000#3 ign).trans rfl
theorem EncodedInRow.keyReset (ign : DataField) : EncodedInRow.Statement (.keyReset ign) :=
  (mask_cmdWord 0b001#3 ign).trans rfl
theorem EncodedInRow.keyNibble (ign : BitVec 23) (v : Nibble) : EncodedInRow.Statement (.keyNibble ign v) :=
  (mask_cmdWord 0b010#3 (ign ++ v)).trans rfl
theorem EncodedInRow.encrypt (p : Block) : EncodedInRow.Statement (.encrypt p) :=
  (mask_cmdWord 0b011#3 p).trans rfl
theorem EncodedInRow.decrypt (c : Block) : EncodedInRow.Statement (.decrypt c) :=
  (mask_cmdWord 0b100#3 c).trans rfl
theorem EncodedInRow.reserved101 (ign : DataField) : EncodedInRow.Statement (.reserved101 ign) :=
  (mask_cmdWord 0b101#3 ign).trans rfl
theorem EncodedInRow.reserved110 (ign : DataField) : EncodedInRow.Statement (.reserved110 ign) :=
  (mask_cmdWord 0b110#3 ign).trans rfl
theorem EncodedInRow.reserved111 (ign : DataField) : EncodedInRow.Statement (.reserved111 ign) :=
  (mask_cmdWord 0b111#3 ign).trans rfl

end Sys2Proof.Laws
end

