-- ==== Sys2Proof/Laws/Step.lean ====
section
/-! SUPPORT. What one edge can answer, and what the round edges leave in each register. -/

namespace Sys2Proof.Machine

/-! ### The round edges, register by register -/

variable (s : State)

@[simp] theorem encRound_key : (encRound s).key = s.key := by unfold encRound; dsimp only; split <;> rfl
@[simp] theorem encRound_kcnt : (encRound s).kcnt = s.kcnt := by unfold encRound; dsimp only; split <;> rfl
@[simp] theorem encRound_err : (encRound s).err = s.err := by unfold encRound; dsimp only; split <;> rfl
@[simp] theorem encRound_inputs : (encRound s).inputs = s.inputs := by unfold encRound; dsimp only; split <;> rfl
@[simp] theorem encRound_block :
    (encRound s).block = fwdRound s.block (roundSubkeys s.key s.rnd.val) := by
  unfold encRound; dsimp only; split <;> rfl
@[simp] theorem encRound_fsm : (encRound s).fsm = if s.rnd = 55 then .idle else s.fsm := by
  unfold encRound; dsimp only; split <;> rfl
@[simp] theorem encRound_done : (encRound s).done = if s.rnd = 55 then true else s.done := by
  unfold encRound; dsimp only; split <;> rfl
@[simp] theorem encRound_rnd : (encRound s).rnd = if s.rnd = 55 then s.rnd else s.rnd + 1 := by
  unfold encRound; dsimp only; split <;> rfl

@[simp] theorem decRound_key : (decRound s).key = s.key := by unfold decRound; dsimp only; split <;> rfl
@[simp] theorem decRound_kcnt : (decRound s).kcnt = s.kcnt := by unfold decRound; dsimp only; split <;> rfl
@[simp] theorem decRound_err : (decRound s).err = s.err := by unfold decRound; dsimp only; split <;> rfl
@[simp] theorem decRound_inputs : (decRound s).inputs = s.inputs := by unfold decRound; dsimp only; split <;> rfl
@[simp] theorem decRound_block :
    (decRound s).block = invRound s.block (roundSubkeys s.key s.rnd.val) := by
  unfold decRound; dsimp only; split <;> rfl
@[simp] theorem decRound_fsm : (decRound s).fsm = if s.rnd = 0 then .idle else s.fsm := by
  unfold decRound; dsimp only; split <;> rfl
@[simp] theorem decRound_done : (decRound s).done = if s.rnd = 0 then true else s.done := by
  unfold decRound; dsimp only; split <;> rfl
@[simp] theorem decRound_rnd : (decRound s).rnd = if s.rnd = 0 then s.rnd else s.rnd - 1 := by
  unfold decRound; dsimp only; split <;> rfl

/-! ### One edge -/

theorem edge_reset {d : Inputs} (h : d.rst = true) : edge s d = .next s.applyReset := by simp [edge, h]

theorem edge_command {d : Inputs} (hr : d.rst = false) (hf : s.fsm = .idle) (hv : d.cmdValid = true) :
    edge s d = exec (decode d.word) s := by simp [edge, hr, hf, hv]

theorem edge_quiet {d : Inputs} (hr : d.rst = false) (hf : s.fsm = .idle) (hv : d.cmdValid = false) :
    edge s d = .next s := by simp [edge, hr, hf, hv]

theorem edge_enc {d : Inputs} (hr : d.rst = false) (hf : s.fsm = .enc) : edge s d = .next (encRound s) := by
  simp [edge, hr, hf]

theorem edge_dec {d : Inputs} (hr : d.rst = false) (hf : s.fsm = .dec) : edge s d = .next (decRound s) := by
  simp [edge, hr, hf]

/-- Everything an edge can be: a reset edge, an accepting edge, an idle edge or a round edge. -/
theorem edge_cases (d : Inputs) :
    (d.rst = true ∧ edge s d = .next s.applyReset) ∨
    (d.rst = false ∧ s.fsm = .idle ∧ d.cmdValid = true ∧ edge s d = exec (decode d.word) s) ∨
    (d.rst = false ∧ s.fsm = .idle ∧ d.cmdValid = false ∧ edge s d = .next s) ∨
    (d.rst = false ∧ s.fsm = .enc ∧ edge s d = .next (encRound s)) ∨
    (d.rst = false ∧ s.fsm = .dec ∧ edge s d = .next (decRound s)) := by
  cases hr : d.rst with
  | true => exact .inl ⟨rfl, edge_reset s hr⟩
  | false =>
    refine .inr ?_
    cases hf : s.fsm with
    | idle =>
      cases hv : d.cmdValid with
      | true => exact .inl ⟨rfl, rfl, rfl, edge_command s hr hf hv⟩
      | false => exact .inr (.inl ⟨rfl, rfl, rfl, edge_quiet s hr hf hv⟩)
    | enc => exact .inr (.inr (.inl ⟨rfl, rfl, edge_enc s hr hf⟩))
    | dec => exact .inr (.inr (.inr ⟨rfl, rfl, edge_dec s hr hf⟩))

/-- A step is the edge with the script's next port values, on the state with that entry taken off the script. -/
theorem step_eq : step s = edge (s.setInputs s.inputs.tail) s.nextInputs := rfl

/-- A step whose script begins with `d`. -/
theorem step_of_inputs {d : Inputs} {rest : List Inputs} (h : s.inputs = d :: rest) :
    step s = edge (s.setInputs rest) d := by
  rw [step_eq, State.nextInputs, h]; rfl

/-- No state of the controller has the code 0b11 (30_encoding.md R77). -/
@[simp] theorem Fsm.code_ne_three (f : Fsm) : ¬f.code = 3#2 := by cases f <;> decide

/-- The round counter's value counts up where it is not at its end. -/
theorem rnd_add_one_val {r : Fin 56} (h : r ≠ 55) : (r + 1).val = r.val + 1 := by
  have hr : r.val ≠ 55 := fun e => h (Fin.ext e)
  rw [Fin.val_add_one_of_lt (by rw [Fin.lt_def]; simp; omega)]

/-- The round counter's value counts down where it is not at 0. -/
theorem rnd_sub_one_val {r : Fin 56} (h : r ≠ 0) : (r - 1).val = r.val - 1 := Fin.val_sub_one_of_ne_zero h

/-- The port values `k` edges on, where the host holds `rst = 0` for the next `n` edges and `k < n`. -/
theorem headD_drop_rst {l : List Inputs} {n k : Nat} (h : ∀ d ∈ l.take n, d.rst = false) (hk : k < n) :
    ((l.drop k).headD Inputs.quiet).rst = false := by
  cases e : l.drop k with
  | nil => rfl
  | cons a b =>
    have ha : l[k]? = some a := by rw [← List.head?_drop, e]; rfl
    obtain ⟨hk', ha'⟩ := List.getElem?_eq_some_iff.mp ha
    exact h a (List.mem_take_iff_getElem.mpr ⟨k, by omega, ha'⟩)

/-- A run of `m + n` edges is a run of `m` and then of `n`. -/
theorem stepN_add (m n : Nat) {t : State} (h : stepN m s = .next t) : stepN (m + n) s = stepN n t := by
  induction m generalizing s with
  | zero =>
    simp only [stepN, Host.Outcome.next.injEq] at h
    simp [h]
  | succ m ih =>
    rw [Nat.succ_add]
    simp only [stepN] at h ⊢
    cases hs : step s with
    | next s' => rw [hs] at h; exact ih s' h
    | fault r => rw [hs] at h; cases h
    | refused r => rw [hs] at h; cases h

/-- One more edge at the end of a run. -/
theorem stepN_succ {n : Nat} {s t : State} (h : stepN n s = .next t) : stepN (n + 1) s = step t := by
  rw [stepN_add s n 1 h, stepN]
  cases step t <;> rfl

/-! ### Steps of known kinds, register by register -/

/-- The step that accepts an ENCRYPT with a complete key. -/
theorem step_startsEnc {p : Block} {rest : List Inputs} (hf : s.fsm = .idle) (hk : s.kcnt = 640)
    (hi : s.inputs = ⟨false, true, 0b011#3, p⟩ :: rest) :
    step s = .next { s with fsm := .enc, rnd := 0, block := p, done := false, err := .ok, inputs := rest } := by
  rw [step_of_inputs s hi, edge_command _ rfl (by simpa using hf) rfl, decode_encrypt (opField_word _), dataField_word]
  exact if_neg (not_not.mpr hk)

/-- The step that accepts a DECRYPT with a complete key. -/
theorem step_startsDec {c : Block} {rest : List Inputs} (hf : s.fsm = .idle) (hk : s.kcnt = 640)
    (hi : s.inputs = ⟨false, true, 0b100#3, c⟩ :: rest) :
    step s = .next { s with fsm := .dec, rnd := 55, block := c, done := false, err := .ok, inputs := rest } := by
  rw [step_of_inputs s hi, edge_command _ rfl (by simpa using hf) rfl, decode_decrypt (opField_word _), dataField_word]
  exact if_neg (not_not.mpr hk)

/-- The step that accepts a KEY_NIBBLE on an incomplete key. -/
theorem step_writesNibble {d : Inputs} {rest : List Inputs} (hf : s.fsm = .idle) (hk : s.kcnt ≠ 640)
    (hi : s.inputs = d :: rest) (hr : d.rst = false) (hv : d.cmdValid = true) (ho : d.cmdOp = 0b010#3) :
    step s = .next { s with key := keyWriteNibble s.key s.kcnt.val (nibbleField d.word), kcnt := s.kcnt + 1, err := .ok,
                            inputs := rest } := by
  rw [step_of_inputs s hi, edge_command _ hr (by simpa using hf) hv, decode_keyNibble (by rw [opField_word, ho])]
  exact if_neg hk

/-- A forward round that is not the last. -/
theorem step_encRound_mid (hf : s.fsm = .enc) (hr : s.nextInputs.rst = false) (h : s.rnd ≠ 55) :
    step s = .next { s with rnd := s.rnd + 1, block := fwdRound s.block (roundSubkeys s.key s.rnd.val),
                            inputs := s.inputs.tail } := by
  rw [step_eq, edge_enc _ hr (by simpa using hf), encRound, if_neg (by simpa using h)]; rfl

/-- The last forward round. -/
theorem step_encRound_last (hf : s.fsm = .enc) (hr : s.nextInputs.rst = false) (h : s.rnd = 55) :
    step s = .next { s with fsm := .idle, done := true, block := fwdRound s.block (roundSubkeys s.key s.rnd.val),
                            inputs := s.inputs.tail } := by
  rw [step_eq, edge_enc _ hr (by simpa using hf), encRound, if_pos (by simpa using h)]; rfl

/-- An inverse round that is not the last. -/
theorem step_decRound_mid (hf : s.fsm = .dec) (hr : s.nextInputs.rst = false) (h : s.rnd ≠ 0) :
    step s = .next { s with rnd := s.rnd - 1, block := invRound s.block (roundSubkeys s.key s.rnd.val),
                            inputs := s.inputs.tail } := by
  rw [step_eq, edge_dec _ hr (by simpa using hf), decRound, if_neg (by simpa using h)]; rfl

/-- The last inverse round. -/
theorem step_decRound_last (hf : s.fsm = .dec) (hr : s.nextInputs.rst = false) (h : s.rnd = 0) :
    step s = .next { s with fsm := .idle, done := true, block := invRound s.block (roundSubkeys s.key s.rnd.val),
                            inputs := s.inputs.tail } := by
  rw [step_eq, edge_dec _ hr (by simpa using hf), decRound, if_pos (by simpa using h)]; rfl

end Sys2Proof.Machine
end

