-- ==== Sys2Proof/Tests/Slice0.lean ====
section
/-! SUPPORT. The model's own tests. Expected values come from the spec: an opcode row of 30_encoding.md R72, the example of
a command's rule, or a vector of 95_test_vectors.md, as each group says. After them, for every statement with hypotheses, a
state and operands that meet them (`witness_…`). -/

namespace Sys2Proof.Tests

open Sys2Proof Sys2Proof.Machine

/- One theorem after another: many kernel evaluations waiting for each other would each hold a thread and its stack. -/
set_option Elab.async false

/-! ### WellFormed: each check refuses an ill-formed term (30_encoding.md R79 to R81) -/

theorem test_knib_16_refused : (AsmStmt.knib 16).wellFormed = false := by decide
theorem test_knib_15_taken : (AsmStmt.knib 15).wellFormed = true := by decide
theorem test_enc_2_27_refused : (AsmStmt.enc 0x8000000).wellFormed = false := by decide
theorem test_dec_2_27_refused : (AsmStmt.dec 0x8000000).wellFormed = false := by decide
theorem test_encw_2_27_refused : (AsmStmt.encw 0x8000000).wellFormed = false := by decide
theorem test_decw_2_27_refused : (AsmStmt.decw 0x8000000).wellFormed = false := by decide
theorem test_word_2_30_refused : (AsmStmt.word 0x40000000).wellFormed = false := by decide
theorem test_key_639_digits_refused : (AsmStmt.key (List.replicate 639 '0')).wellFormed = false := by decide +kernel
theorem test_key_bad_digit_refused : (AsmStmt.key ('g' :: List.replicate 639 '0')).wellFormed = false := by decide +kernel
theorem test_key_640_digits_taken : (AsmStmt.key (List.replicate 640 'F')).wellFormed = true := by decide +kernel

/-! ### Decoding: words written out from the rows of 30_encoding.md R72 and the examples of the commands' rules -/

theorem test_decode_nop : decode 0b000_111111111111111111111111111#30 = .nop 0x7FFFFFF#27 := by decide
theorem test_decode_keyReset : decode 0b001_000000000000000000000000000#30 = .keyReset 0 := by decide
theorem test_decode_keyNibble : decode 0b010_00000000000000000000001_0101#30 = .keyNibble 1 5 := by decide
theorem test_decode_encrypt : decode 0b011_001001000110100010101100111#30 = .encrypt 0x1234567#27 := by decide
theorem test_decode_decrypt : decode 0b100_001100000110010100110110110#30 = .decrypt 0x18329B6#27 := by decide
theorem test_decode_reserved101 : decode 0b101_000000000000000000000000001#30 = .reserved101 1 := by decide
theorem test_decode_reserved110 : decode 0b110_100000000000000000000000000#30 = .reserved110 0x4000000#27 := by decide
theorem test_decode_reserved111 : decode 0b111_111111111111111111111111111#30 = .reserved111 0x7FFFFFF#27 := by decide
theorem test_encode_examples :
    encode (.keyReset 0) = 0x08000000#30 ∧ encode (.keyNibble 0 0xA) = 0x1000000A#30 ∧
    encode (.encrypt 0x1234567) = 0x19234567#30 ∧ encode (.decrypt 0x18329B6) = 0x218329B6#30 := by decide

/-- The format has 30 bits (30_encoding.md R70). -/
theorem test_bit_30_rejected : decodeNat 0x40000000 = .error .widerThanCommandWord := by decide

/-! ### The meanings: the examples of R171, R101, R102, R172, R173, R174 and the command vectors of 95_test_vectors.md -/

/-- A small state: reset, with the given count of key nibbles and `ERR`. -/
def counted (n : Fin 641) (e : ErrCode) : State := { State.reset with kcnt := n, err := e }

/-- What a step or a meaning leaves: its next state. -/
def nextOf (o : Host.Outcome State Fault Refusal) : State :=
  match o with
  | .next s => s
  | .fault _ => State.reset
  | .refused _ => State.reset

theorem test_nop_clears_err : (nextOf (exec (.nop 0x7FFFFFF) (counted 7 .illegalCmd))).err = .ok := by decide
theorem test_keyReset_example :
    (nextOf (exec (.keyReset 0) (counted 640 .keyOverflow))).kcnt = 0 ∧
    (nextOf (exec (.keyReset 0) (counted 640 .keyOverflow))).err = .ok := by decide
theorem test_keyNibble_first :
    (nextOf (exec (.keyNibble 0 0xA) State.reset)).key.extractLsb' 2556 4 = 0b1010#4 ∧
    (nextOf (exec (.keyNibble 0 0xA) State.reset)).kcnt = 1 := by decide +kernel
theorem test_keyNibble_last :
    (nextOf (exec (.keyNibble 0 5) (counted 639 .ok))).key.extractLsb' 0 4 = 5#4 ∧
    (nextOf (exec (.keyNibble 0 5) (counted 639 .ok))).keyValid = true ∧
    (nextOf (exec (.keyNibble 0x7FFFFF 0) (counted 640 .ok))).err.code = 2#2 := by decide +kernel
theorem test_encrypt_example :
    let t := nextOf (exec (.encrypt 0x1234567) (counted 640 .illegalCmd))
    t.block = 0x1234567 ∧ t.rnd = 0 ∧ t.fsm = .enc ∧ t.done = false ∧ t.err.code = 0#2 := by decide
theorem test_encrypt_incomplete :
    let t := nextOf (exec (.encrypt 0) (counted 639 .ok))
    t.fsm = .idle ∧ t.err.code = 1#2 := by decide
theorem test_decrypt_example :
    let t := nextOf (exec (.decrypt 0x18329B6) (counted 640 .ok))
    t.block = 0x18329B6 ∧ t.rnd = 55 ∧ t.fsm = .dec := by decide
theorem test_decrypt_incomplete : (nextOf (exec (.decrypt 0) (counted 0 .ok))).err.code = 1#2 := by decide
theorem test_reserved_examples :
    (nextOf (exec (decode 0x28000000#30) State.reset)).err.code = 3#2 ∧
    (nextOf (exec (decode 0x30000000#30) State.reset)).err.code = 3#2 ∧
    (nextOf (exec (decode 0x3FFFFFFF#30) State.reset)).err.code = 3#2 := by decide

/-! ### The round function: the tables of 95_test_vectors.md sections 2.2 and 2.3 -/

theorem test_mix : mix 0x1234567 0x0091A2B = 0x12A5F4C := by decide
theorem test_permP : permP 0x12A5F4C = 0x3150EF2 ∧ permP 0x2000000 = 0x0800000 ∧ permP 0x1234567 = 0x3558859 := by decide
theorem test_permPinv : permPinv 0x2000000 = 0x0020000 ∧ permPinv 0x1234567 = 0x0DC5385 := by decide
theorem test_keyedPerm :
    (List.range 8).map (fun w => (keyedPerm (BitVec.ofNat 3 w) 1).toNat) = [0, 1, 4, 5, 2, 3, 6, 7] ∧
    (List.range 8).map (fun w => (keyedPerm (BitVec.ofNat 3 w) 2).toNat) = [0, 2, 1, 3, 4, 6, 5, 7] := by decide
theorem test_layer : layer 0x3150EF2 0x0F135 = 0x611856F ∧ layer 0x1234567 0x2AAAA = 0x362737A := by decide
theorem test_invLayer : invLayer 0x1234567 0x3FFFF = 0x4835EE9 ∧ invLayer 0x7FFFFFF 0x0F135 = 0x4262852 := by decide
theorem test_fwdRound : fwdRound 0x1234567 ⟨0x0091A2B, 0x0F135⟩ = 0x611856F := by decide +kernel
theorem test_invRound : invRound 0x611856F ⟨0x0091A2B, 0x0F135⟩ = 0x1234567 := by decide +kernel

/-- The key KB of 95_test_vectors.md: `0123456789abcdef`, 40 times. -/
def keyKB : KeyStore :=
  expandKey (((List.replicate 40 "0123456789abcdef".toList).flatten.map hexDigit?).map fun d => d.getD 0)

theorem test_subkeys_first : roundSubkeys keyKB 0 = ⟨0x0091A2B, 0x0F135⟩ := by decide +kernel
theorem test_subkeys_last : roundSubkeys keyKB 55 = ⟨0x2F37BC0, 0x12345⟩ := by decide +kernel
theorem test_encrypt_KB : encrypt 0x1234567 keyKB = 0x18329B6 := by decide +kernel
theorem test_decrypt_KB : decrypt 0x1234567 keyKB = 0x25FFA8C := by decide +kernel

/-! ### Single edges (95_test_vectors.md 2.4, P5; 70_reset_and_hazards.md R240, R245) -/

/-- KB loaded, an encryption at round 3 with the block of P5, and these port values at the next edges. -/
def atRound3 (ins : List Inputs) : State :=
  { fsm := .enc, rnd := 3, block := 0x392EA5B, key := keyKB, kcnt := 640, done := false, err := .ok, inputs := ins }

theorem test_reset_during_operation :
    let t := nextOf (step (atRound3 [Inputs.reset]))
    t.fsm = .idle ∧ t.rnd = 0 ∧ t.block = 0 ∧ t.kcnt = 0 ∧ t.done = false ∧ t.key = keyKB := by decide +kernel
theorem test_round_edge_P2 :
    (nextOf (step { atRound3 [Inputs.present 0x08000000#30] with rnd := 0, block := 0x1234567 })).block = 0x611856F ∧
    (nextOf (step { atRound3 [Inputs.present 0x08000000#30] with rnd := 0, block := 0x1234567 })).kcnt = 640 := by
  decide +kernel
theorem test_last_round_edge_P2 :
    let t := nextOf (step { atRound3 [] with rnd := 55, block := 0x0BF027F })
    t.fsm = .idle ∧ t.done = true ∧ t.rnd = 55 ∧ t.block = 0x18329B6 := by decide +kernel
theorem test_inverse_edge_P2 :
    let t := nextOf (step { atRound3 [] with fsm := .dec, rnd := 55, block := 0x18329B6 })
    t.fsm = .dec ∧ t.rnd = 54 ∧ t.block = 0x0BF027F := by decide +kernel
theorem test_trace_ports_P2 :
    State.tracePorts { atRound3 [] with rnd := 0, block := 0x1234567 } =
      ⟨true, false, 0, ⟨0x12A5F4C, 0x3150EF2, 0x611856F⟩⟩ := by decide +kernel
theorem test_fetch_word_runs_next :
    (nextOf (step (State.reset.withFetchWord 32 0x18000000))).err.code = 1#2 ∧
    (nextOf (step (State.reset.withFetchWord 32 0x10000007))).kcnt = 1 := by decide +kernel

/-! ### The textual form (30_encoding.md R79, R80) -/

theorem test_parse_enc_hex : parseLine "ENC 0x1234567 ; a block".toList = .ok (some (.enc 0x1234567)) := by decide
theorem test_parse_enc_binary :
    parseLine "ENC 0b100000000000000000000000001".toList = .ok (some (.enc 0x4000001)) := by decide
theorem test_parse_binary_of_26_digits_rejected :
    parseLine "DEC 0b10000000000000000000000001".toList = .error .malformedOperand := by decide
theorem test_parse_knib_decimal : parseLine "KNIB 10".toList = .ok (some (.knib 10)) := by decide
theorem test_parse_comment : parseLine "   ; nothing".toList = .ok none := by decide
theorem test_parse_unknown : parseLine "HALT".toList = .error .noSuchStatement := by decide
theorem test_assemble_program :
    assembleProgram [.knib 0xA, .word 0x28000000, .encw 0x1234567] =
      .ok [.command 0x1000000A, .command 0x28000000, .command 0x19234567, .wait, .read] := by decide
theorem test_assemble_out_of_range : assembleProgram [.nop, .knib 16] = .error .operandOutOfRange := by decide

/-! ### Witnesses: a state and operands that meet the hypotheses of each statement, clause by clause -/

/-- An idle block with a complete all-zero key and these port values at the next edges. -/
def ready (ins : List Inputs) : State := { State.reset with kcnt := 640, inputs := ins }

/-- An ENCRYPT of `0x1234567` on the port. -/
def encPort : Inputs := ⟨false, true, 0b011#3, 0x1234567⟩

/-- A DECRYPT of `0x18329B6` on the port. -/
def decPort : Inputs := ⟨false, true, 0b100#3, 0x18329B6⟩

theorem witness_DecodeOfEncode : (Instr.keyNibble 0x7FFFFF 0xF).wellFormed = true := by decide

/-- A word in each row, with its data bits all 1. -/
theorem witness_OpcodeMapSelectsCommand :
    (0x07FFFFFF#30).extractLsb' 27 3 = 0b000#3 ∧ (0x0FFFFFFF#30).extractLsb' 27 3 = 0b001#3 ∧
    (0x17FFFFFF#30).extractLsb' 27 3 = 0b010#3 ∧ (0x1FFFFFFF#30).extractLsb' 27 3 = 0b011#3 ∧
    (0x27FFFFFF#30).extractLsb' 27 3 = 0b100#3 ∧ (0x2FFFFFFF#30).extractLsb' 27 3 = 0b101#3 ∧
    (0x37FFFFFF#30).extractLsb' 27 3 = 0b110#3 ∧ (0x3FFFFFFF#30).extractLsb' 27 3 = 0b111#3 := by decide

/-- Two KEY_NIBBLE words with one nibble and different ignored bits, and two NOP words. -/
theorem witness_IgnoredBitsHaveNoEffect :
    ((0x17FFFFF0#30).extractLsb' 27 3 = (0x10000000#30).extractLsb' 27 3 ∧
      (0x17FFFFF0#30).extractLsb' 27 3 ≠ 0b011#3 ∧ (0x17FFFFF0#30).extractLsb' 27 3 ≠ 0b100#3 ∧
      ((0x17FFFFF0#30).extractLsb' 27 3 = 0b010#3 →
        (0x17FFFFF0#30).extractLsb' 0 4 = (0x10000000#30).extractLsb' 0 4)) ∧
    ((0x07FFFFFF#30).extractLsb' 27 3 = (0#30).extractLsb' 27 3 ∧
      (0x07FFFFFF#30).extractLsb' 27 3 ≠ 0b011#3 ∧ (0x07FFFFFF#30).extractLsb' 27 3 ≠ 0b100#3 ∧
      ((0x07FFFFFF#30).extractLsb' 27 3 = 0b010#3 →
        (0x07FFFFFF#30).extractLsb' 0 4 = (0#30).extractLsb' 0 4)) := by decide

/-- Slots 0 and 639 and a complete key; in slot 0 the written bits are 2556..2559, in slot 639 they are 0..3. -/
theorem witness_KeyNibbleWritesSlotOrOverflows :
    (counted 640 .ok).kcnt.val = 640 ∧ (counted 0 .ok).kcnt.val ≠ 640 ∧ (counted 639 .ok).kcnt.val ≠ 640 ∧
    (2556 - 4 * (counted 0 .ok).kcnt.val ≤ 2559 ∧ 2559 ≤ 2559 - 4 * (counted 0 .ok).kcnt.val) ∧
    (2556 - 4 * (counted 639 .ok).kcnt.val ≤ 0 ∧ 0 ≤ 2559 - 4 * (counted 639 .ok).kcnt.val) ∧
    ¬(2556 - 4 * (counted 639 .ok).kcnt.val ≤ 4 ∧ 4 ≤ 2559 - 4 * (counted 639 .ok).kcnt.val) := by decide

theorem witness_EncryptStartsOrRejects :
    (counted 0 .ok).kcnt.val ≠ 640 ∧ (counted 639 .ok).kcnt.val ≠ 640 ∧ (counted 640 .ok).kcnt.val = 640 := by decide

theorem witness_DecryptStartsOrRejects :
    (counted 0 .ok).kcnt.val ≠ 640 ∧ (counted 639 .ok).kcnt.val ≠ 640 ∧ (counted 640 .ok).kcnt.val = 640 := by decide

/-- An ENCRYPT on the reset state is accepted and rejected. -/
theorem witness_RejectedCommandChangesOnlyErr :
    ({ State.reset with inputs := [encPort] } : State).accepts
        ({ State.reset with inputs := [encPort] } : State).nextInputs = true ∧
    step { State.reset with inputs := [encPort] } = .next { State.reset with err := .keyIncomplete } ∧
    ({ State.reset with err := .keyIncomplete } : State).err ≠ .ok := ⟨rfl, rfl, by decide⟩

/-- A reset edge, an accepted ENCRYPT, an overflow and an idle edge each have a next state. -/
theorem witness_ErrReportsLastAcceptedCommand :
    step (ready [Inputs.reset]) = .next State.reset ∧
    step { State.reset with inputs := [encPort] } = .next { State.reset with err := .keyIncomplete } ∧
    step (ready [Inputs.present 0x10000005#30]) = .next { ready [] with err := .keyOverflow } ∧
    step (ready []) = .next (ready []) := ⟨rfl, rfl, rfl, rfl⟩

/-- Edges of each kind, the last rounds among them. -/
theorem witness_DoneFollowsOperations :
    (∃ t, step (ready [Inputs.reset]) = .next t) ∧ (∃ t, step (ready [encPort]) = .next t) ∧
    (∃ t, step { ready [] with fsm := .enc, rnd := 54 } = .next t) ∧
    (∃ t, step { ready [] with fsm := .enc, rnd := 55 } = .next t) ∧
    (∃ t, step { ready [] with fsm := .dec, rnd := 0 } = .next t) ∧
    (∃ t, step { ready [] with fsm := .dec, rnd := 1 } = .next t) :=
  ⟨⟨_, rfl⟩, ⟨_, rfl⟩, ⟨_, rfl⟩, ⟨_, rfl⟩, ⟨_, rfl⟩, ⟨_, rfl⟩⟩

/-- A KEY_NIBBLE of 7 on the reset state changes `KEY`. -/
theorem witness_KeyChangesOnlyByKeyNibble :
    step { State.reset with inputs := [Inputs.present 0x10000007#30] } =
      .next { State.reset with key := keyWriteNibble 0 0 7, kcnt := 1 } ∧
    keyWriteNibble 0 0 7 ≠ 0 := ⟨rfl, by decide +kernel⟩

/-- A KEY_RESET with a result on `dout`. -/
theorem witness_ResultStaysUntilNextOperation :
    let s : State := { ready [Inputs.present 0x08000000#30] with rnd := 55, block := 0x18329B6, done := true }
    s.fsm = .idle ∧ s.nextInputs.rst = false ∧
    ¬(s.nextInputs.cmdValid = true ∧ (s.nextInputs.cmdOp = 0b011#3 ∨ s.nextInputs.cmdOp = 0b100#3) ∧ s.kcnt.val = 640) ∧
    step s = .next { s with kcnt := 0, inputs := [] } := ⟨rfl, rfl, by decide, rfl⟩

theorem witness_StepRunsDecodedCommand :
    (ready [Inputs.present 0x19234567#30]).fsm = .idle ∧
    (ready [Inputs.present 0x19234567#30]).inputs =
      ⟨false, true, (0x19234567#30).extractLsb' 27 3, (0x19234567#30).extractLsb' 0 27⟩ :: [] ∧
    decode 0x19234567#30 = .encrypt 0x1234567 ∧ (Instr.encrypt 0x1234567).wellFormed = true := by decide

/-- An accepted command; one not accepted because of reset, of `cmd_valid`, of a running operation. -/
theorem witness_OnlyAcceptedCommandsMatter :
    (ready []).accepts encPort = true ∧ (ready []).accepts ⟨true, true, 0b011#3, 0⟩ = false ∧
    (ready []).accepts ⟨false, false, 0b011#3, 0⟩ = false ∧
    ({ ready [] with fsm := .enc } : State).accepts encPort = false := by decide

theorem witness_IdleEdgeChangesNoRegister :
    (ready [Inputs.quiet]).fsm = .idle ∧ (ready [Inputs.quiet]).nextInputs.rst = false ∧
    (ready [Inputs.quiet]).nextInputs.cmdValid = false := by decide

theorem witness_ForwardRoundEdge :
    (({ ready [] with fsm := .enc, rnd := 55 } : State).fsm = .enc ∧
      ({ ready [] with fsm := .enc, rnd := 55 } : State).nextInputs.rst = false ∧
      ({ ready [] with fsm := .enc, rnd := 55 } : State).rnd.val = 55) ∧
    (({ ready [encPort] with fsm := .enc, rnd := 54 } : State).fsm = .enc ∧
      ({ ready [encPort] with fsm := .enc, rnd := 54 } : State).nextInputs.rst = false ∧
      ({ ready [encPort] with fsm := .enc, rnd := 54 } : State).rnd.val ≠ 55) := by decide

theorem witness_InverseRoundEdge :
    (({ ready [] with fsm := .dec, rnd := 0 } : State).fsm = .dec ∧
      ({ ready [] with fsm := .dec, rnd := 0 } : State).nextInputs.rst = false ∧
      ({ ready [] with fsm := .dec, rnd := 0 } : State).rnd.val = 0) ∧
    (({ ready [encPort] with fsm := .dec, rnd := 55 } : State).fsm = .dec ∧
      ({ ready [encPort] with fsm := .dec, rnd := 55 } : State).nextInputs.rst = false ∧
      ({ ready [encPort] with fsm := .dec, rnd := 55 } : State).rnd.val ≠ 0) := by decide

theorem witness_BusyPortIsIgnored :
    (atRound3 []).fsm ≠ .idle ∧ encPort.rst = false ∧ Inputs.quiet.rst = false ∧ encPort ≠ Inputs.quiet := by decide

theorem witness_ResetEdgeLoadsResetValues :
    (atRound3 [⟨true, true, 0b011#3, 5⟩]).nextInputs.rst = true := by decide

theorem witness_TraceOutputsFollowState :
    (atRound3 []).fsm = .enc ∧ ({ atRound3 [] with fsm := .dec } : State).fsm = .dec ∧ (ready []).fsm = .idle := by decide

/-- A reachable state in each controller state, and its next state. -/
theorem witness_ReachableInvKeptByStep :
    ((ready [encPort]).Inv ∧ ∃ t, step (ready [encPort]) = .next t) ∧
    ((atRound3 []).Inv ∧ ∃ t, step (atRound3 []) = .next t) ∧
    (({ ready [] with fsm := .dec, rnd := 0 } : State).Inv ∧ ∃ t, step { ready [] with fsm := .dec, rnd := 0 } = .next t) :=
  ⟨⟨by decide, _, rfl⟩, ⟨by decide, _, rfl⟩, ⟨by decide, _, rfl⟩⟩

/-- The operation runs with no more entries on the script, and with other commands on the port while it runs. -/
theorem witness_EncryptionRunsFiftySixEdges :
    (ready [encPort]).fsm = .idle ∧ (ready [encPort]).kcnt.val = 640 ∧
    (ready [encPort]).inputs = ⟨false, true, 0b011#3, 0x1234567⟩ :: [] ∧ (∀ d ∈ ([] : List Inputs).take 56, d.rst = false) ∧
    (∀ d ∈ [decPort, Inputs.present 0x08000000#30].take 56, d.rst = false) := by decide

theorem witness_DecryptionRunsFiftySixEdges :
    (ready [decPort]).fsm = .idle ∧ (ready [decPort]).kcnt.val = 640 ∧
    (ready [decPort]).inputs = ⟨false, true, 0b100#3, 0x18329B6⟩ :: [] ∧ (∀ d ∈ ([] : List Inputs).take 56, d.rst = false) ∧
    (∀ d ∈ [encPort, Inputs.present 0x08000000#30].take 56, d.rst = false) := by decide

/-- The two sequences of blocks exist: the states of an encryption, and those of a decryption counted backward. -/
theorem witness_CipherIsFiftySixRounds :
    (∀ r < 56, encryptState keyKB 5 (r + 1) = fwdRound (encryptState keyKB 5 r) (roundSubkeys keyKB r)) ∧
    (∀ r < 56, decryptState keyKB 5 (56 - r) = invRound (decryptState keyKB 5 (56 - (r + 1))) (roundSubkeys keyKB r)) := by
  refine ⟨fun r _ => rfl, fun r hr => ?_⟩
  have e : 56 - r = (56 - (r + 1)) + 1 := by omega
  have e' : 55 - (56 - (r + 1)) = r := by omega
  rw [e, decryptState, e']

theorem witness_TraceRecordsEveryRound :
    (ready []).fsm = .idle ∧ (ready []).kcnt.val = 640 ∧ (∀ d ∈ [decPort, Inputs.quiet].take 56, d.rst = false) := by decide

/-- Slots 0 and 639: a bit inside the slot and one outside it. -/
theorem witness_KeyWriteTouchesOnlyItsSlot :
    (0 < 640 ∧ 2556 < 2560 ∧ 2556 - 4 * 0 ≤ 2556 ∧ 2556 ≤ 2559 - 4 * 0 ∧ ¬(2556 - 4 * 0 ≤ 2555 ∧ 2555 ≤ 2559 - 4 * 0)) ∧
    (639 < 640 ∧ 3 < 2560 ∧ 2556 - 4 * 639 ≤ 3 ∧ 3 ≤ 2559 - 4 * 639 ∧ ¬(2556 - 4 * 639 ≤ 4 ∧ 4 ≤ 2559 - 4 * 639)) := by
  decide

theorem witness_SlotReadsBackWhatWasWritten :
    (0 < 640 ∧ (3 : Nat) < 4 ∧ 639 < 640 ∧ 639 ≠ 0) ∧ (639 < 640 ∧ (0 : Nat) < 4 ∧ 638 < 640 ∧ 638 ≠ 639) := by decide

/-- The first round's mixing slice, the last round's selector slice, and the last bits of the store. -/
theorem witness_KeySliceReadsDocumentOrder :
    (0 + 27 ≤ 2560 ∧ 26 < 27) ∧ (2502 + 18 ≤ 2560 ∧ 17 < 18) ∧ (2556 + 4 ≤ 2560 ∧ 0 < 4) := by decide

theorem witness_ExpandKeyPutsNibbleBitsInOrder :
    (List.replicate 640 0xA#4).length = 640 ∧ 0 < 640 ∧ 639 < 640 ∧ (0 : Nat) < 4 ∧ (3 : Nat) < 4 := by
  refine ⟨List.length_replicate, ?_⟩; decide

/-- 640 KEY_NIBBLE commands of the nibble 7, with ignored bits set, on the reset state. -/
theorem witness_KeyLoadYieldsExpandedKey :
    State.reset.fsm = .idle ∧ State.reset.kcnt.val = 0 ∧
    (List.replicate 640 (⟨false, true, 0b010#3, 0x7FFFFF7⟩ : Inputs)).length = 640 ∧
    (∀ d ∈ List.replicate 640 (⟨false, true, 0b010#3, 0x7FFFFF7⟩ : Inputs),
      d.rst = false ∧ d.cmdValid = true ∧ d.cmdOp = 0b010#3) ∧
    ({ State.reset with inputs := List.replicate 640 ⟨false, true, 0b010#3, 0x7FFFFF7⟩ } : State).inputs =
      List.replicate 640 ⟨false, true, 0b010#3, 0x7FFFFF7⟩ ++ [] := by
  refine ⟨rfl, rfl, List.length_replicate, fun d hd => ?_, (List.append_nil _).symm⟩
  rw [List.eq_of_mem_replicate hd]; decide

theorem witness_RoundSubkeysAreKeySlices : 0 < 56 ∧ 55 < 56 ∧ 26 < 27 ∧ 17 < 18 := by decide

/-- Two keys that differ in their last bit alone. -/
theorem witness_LastFortyKeyBitsUnread :
    (∀ j < 2520, (0#2560).getMsbD j = (1#2560).getMsbD j) ∧ 0#2560 ≠ 1#2560 := by
  refine ⟨fun j hj => ?_, by decide +kernel⟩
  have h : 2559 - j ≠ 0 := by omega
  simp [BitVec.getMsbD, BitVec.getLsbD_one, h]

/-- A complete key and one that differs in its last slot; a key of one nibble and one that differs in a stale slot. -/
theorem witness_UnreadKeyIsUnobservable :
    ((ready [encPort]).Inv ∧ SameButUnreadKey (ready [encPort]) { ready [encPort] with key := 0xF#2560 } ∧
      (ready [encPort]).key ≠ 0xF#2560) ∧
    ((counted 1 .ok).Inv ∧ SameButUnreadKey (counted 1 .ok) { counted 1 .ok with key := keyWriteNibble 0 1 0xF } ∧
      (counted 1 .ok).key ≠ keyWriteNibble 0 1 0xF) := by
  refine ⟨⟨by decide, ⟨rfl, fun n _ h => ?_⟩, by decide +kernel⟩, ⟨by decide, ⟨rfl, fun n h _ => ?_⟩, by decide +kernel⟩⟩
  · have : ∀ n < 630, keySlot 0 n = keySlot 0xF#2560 n := by decide +kernel
    exact this n h
  · have h0 : n = 0 := by
      have : (counted 1 .ok).kcnt.val = 1 := by decide
      omega
    rw [h0]; decide +kernel

theorem witness_FixedPermutationMovesPositions : 0 < 26 ∧ 25 < 26 := by decide

theorem witness_FixedPermutationWiring : 0 < 27 ∧ 26 < 27 := by decide

theorem witness_MixIsXorAndSelfInverse : 0 < 27 ∧ 26 < 27 := by decide

theorem witness_KeyedPermutationTable :
    (0#2 = 0b00#2 ∧ 1#2 = 0b01#2) ∧ 2#2 = 0b10#2 ∧ 3#2 = 0b11#2 := by decide

theorem witness_LayersActGroupByGroup : 0 < 9 ∧ 8 < 9 := by decide

/-- A string of 640 hex digits; one of 639; one with a bad character; blocks at the ends of their range. -/
theorem witness_PseudoInstructionsExpand :
    ((List.replicate 640 'f').length = 640 ∧
      (List.replicate 640 'f').map hexDigit? = (List.replicate 640 (0xF#4 : Nibble)).map some) ∧
    (List.replicate 639 'f').length ≠ 640 ∧ (∃ c ∈ 'g' :: List.replicate 639 'f', hexDigit? c = none) ∧
    0 < 2 ^ 27 ∧ 0x7FFFFFF < 2 ^ 27 := by
  refine ⟨⟨List.length_replicate, ?_⟩, ?_, ⟨'g', List.mem_cons_self, by decide⟩, by decide, by decide⟩
  · rw [List.map_replicate, List.map_replicate]; rfl
  · rw [List.length_replicate]; decide

theorem witness_HostReadsTheCipher : (ready []).fsm = .idle ∧ (ready []).kcnt.val = 640 := by decide

theorem witness_HostRoundTripReadsPlaintext : (ready [encPort]).fsm = .idle ∧ (ready [encPort]).kcnt.val = 640 := by decide

end Sys2Proof.Tests
end

section
/-! SUPPORT. The output ports and the status register `ERR` (10_state.md R27, R31, R32, R35): laws of acceptance, of the
ports and of what an edge leaves in `ERR`, and the obligations of 10_state.md that follow from them. -/

namespace Sys2Proof.Machine

/-! ### Register values as numbers -/

/-- The key counter is at its end exactly when its value is 640. -/
theorem kcnt_eq_640_iff {k : Fin 641} : k = 640 ↔ k.val = 640 := Fin.ext_iff

/-! ### Acceptance (10_state.md R35) -/

theorem State.accepts_iff {s : State} {d : Inputs} :
    s.accepts d = true ↔ d.rst = false ∧ d.cmdValid = true ∧ s.fsm = .idle := by
  simp [State.accepts, and_assoc]

@[simp] theorem State.accepts_setInputs (s : State) (l : List Inputs) (d : Inputs) :
    (s.setInputs l).accepts d = s.accepts d := rfl

/-- Acceptance is the port's valid signal together with the block's ready output. -/
theorem State.accepts_eq_valid_and_ready (s : State) (d : Inputs) :
    s.accepts d = (d.cmdValid && s.cmdReady d.rst) := by
  rw [State.accepts, State.cmdReady, ← Bool.and_assoc, Bool.and_comm d.cmdValid]

theorem edge_of_accepts {s : State} {d : Inputs} (h : s.accepts d = true) : edge s d = exec (decode d.word) s := by
  obtain ⟨hr, hv, hf⟩ := State.accepts_iff.mp h
  exact edge_command s hr hf hv

/-- The step of a state put together with a script that begins with `d`. -/
theorem step_inputs_cons (s : State) (d : Inputs) (rest : List Inputs) :
    step { s with inputs := d :: rest } = edge (s.setInputs rest) d := rfl

/-- An edge that accepts nothing reads only `rst` and `cmd_valid` of the input ports. -/
theorem edge_congr_of_not_accepts {s : State} {d d' : Inputs} (h : s.accepts d = false) (hrst : d'.rst = d.rst)
    (hvalid : d'.cmdValid = d.cmdValid) : edge s d = edge s d' := by
  rcases edge_cases s d with ⟨hr, he⟩ | ⟨hr, hf, hv, -⟩ | ⟨hr, hf, hv, he⟩ | ⟨hr, hf, he⟩ | ⟨hr, hf, he⟩
  · rw [he, edge_reset s (hrst.trans hr)]
  · exact absurd (State.accepts_iff.mpr ⟨hr, hv, hf⟩) (by simp [h])
  · rw [he, edge_quiet s (hrst.trans hr) hf (hvalid.trans hv)]
  · rw [he, edge_enc s (hrst.trans hr) hf]
  · rw [he, edge_dec s (hrst.trans hr) hf]

/-- Settles O20: an accepting edge runs the port's word, and any other edge does not read it. -/
theorem onlyAcceptedCommandsMatter : Obligations.OnlyAcceptedCommandsMatter := by
  intro s d rest
  refine ⟨s.accepts_eq_valid_and_ready d, rfl, fun h => ?_, fun h op data => ?_⟩
  · rw [step_inputs_cons]
    exact edge_of_accepts ((s.accepts_setInputs rest d).trans h)
  · rw [step_inputs_cons, step_inputs_cons]
    exact edge_congr_of_not_accepts ((s.accepts_setInputs rest d).trans h) rfl rfl

/-! ### `ERR` after a command and after an edge (10_state.md R27) -/

/-- What an accepted command of opcode `op` writes to `ERR` when the key counter is `k`: the cause that rejects it
(60_exceptions.md R212 to R214), or OK. -/
def errOfCommand (op : Opcode) (k : Fin 641) : ErrCode :=
  if op = 0b011#3 ∨ op = 0b100#3 then (if k.val = 640 then .ok else .keyIncomplete)
  else if op = 0b010#3 then (if k.val = 640 then .keyOverflow else .ok)
  else if 5 ≤ op.toNat then .illegalCmd
  else .ok

/-- A word decodes to the command of its opcode field (30_encoding.md R72, R73). -/
theorem opcode_decode (w : CmdWord) : (decode w).opcode = opField w := by
  rcases opcode_values (opField w) with h | h | h | h | h | h | h | h
  · rw [decode_nop h, h]; rfl
  · rw [decode_keyReset h, h]; rfl
  · rw [decode_keyNibble h, h]; rfl
  · rw [decode_encrypt h, h]; rfl
  · rw [decode_decrypt h, h]; rfl
  · rw [decode_reserved101 h, h]; rfl
  · rw [decode_reserved110 h, h]; rfl
  · rw [decode_reserved111 h, h]; rfl

theorem err_of_startOrReject {f : Fsm} {b : Block} {r : Fin 56} {s t : State} (h : startOrReject f b r s = .next t) :
    t.err = if s.kcnt.val = 640 then .ok else .keyIncomplete := by
  rcases startOrReject_cases f b r s with ⟨hk, he⟩ | ⟨hk, he⟩
  · cases h.symm.trans he; exact (if_neg (kcnt_eq_640_iff.not.mp hk)).symm
  · cases h.symm.trans he; exact (if_pos (kcnt_eq_640_iff.mp hk)).symm

theorem err_of_execKeyNibble {ign : BitVec 23} {v : Nibble} {s t : State} (h : execKeyNibble ign v s = .next t) :
    t.err = if s.kcnt.val = 640 then .keyOverflow else .ok := by
  rcases execKeyNibble_cases ign v s with ⟨hk, he⟩ | ⟨hk, he⟩
  · cases h.symm.trans he; exact (if_pos (kcnt_eq_640_iff.mp hk)).symm
  · cases h.symm.trans he; exact (if_neg (kcnt_eq_640_iff.not.mp hk)).symm

/-- An executed command leaves in `ERR` the code its opcode and the key counter determine. -/
theorem err_of_exec {i : Instr} {s t : State} (h : exec i s = .next t) : t.err = errOfCommand i.opcode s.kcnt := by
  cases i with
  | nop => cases h; rfl
  | keyReset => cases h; rfl
  | keyNibble ign v => exact err_of_execKeyNibble (ign := ign) h
  | encrypt => exact err_of_startOrReject h
  | decrypt => exact err_of_startOrReject h
  | reserved101 => cases h; rfl
  | reserved110 => cases h; rfl
  | reserved111 => cases h; rfl

/-- What one edge leaves in `ERR`: OK after reset, the command's code where one is accepted, else the old code. -/
theorem err_of_edge {s t : State} {d : Inputs} (h : edge s d = .next t) :
    t.err = if d.rst then .ok else if s.accepts d then errOfCommand d.cmdOp s.kcnt else s.err := by
  rcases edge_cases s d with ⟨hr, he⟩ | ⟨hr, hf, hv, he⟩ | ⟨hr, hf, hv, he⟩ | ⟨hr, hf, he⟩ | ⟨hr, hf, he⟩
  · cases h.symm.trans he; simp [hr]
  · have ht := err_of_exec (he.symm.trans h)
    rw [opcode_decode, opField_word] at ht
    simp [ht, hr, State.accepts_iff.mpr ⟨hr, hv, hf⟩]
  · cases h.symm.trans he; simp [hr, State.accepts, hv]
  · cases h.symm.trans he; simp [hr, State.accepts, hf]
  · cases h.symm.trans he; simp [hr, State.accepts, hf]

/-- Settles O14: a step is an edge, and `errOfCommand` is the statement's chain of causes. -/
theorem errReportsLastAcceptedCommand : Obligations.ErrReportsLastAcceptedCommand := by
  refine ⟨fun s _ h => err_of_edge (s := s.setInputs s.inputs.tail) h, fun s rst => ?_⟩
  change s.err.code = _
  cases s.err <;> rfl

/-! ### The output ports (10_state.md R31, R32) -/

theorem State.keyValid_eq (s : State) : s.keyValid = decide (s.kcnt.val = 640) :=
  decide_eq_decide.mpr kcnt_eq_640_iff

theorem State.busy_eq (s : State) : s.busy = !decide (s.fsm = .idle) := decide_not

theorem State.tracePorts_enc {s : State} (h : s.fsm = .enc) :
    s.tracePorts = ⟨true, false, BitVec.ofNat 6 s.rnd.val, fwdStages s.block (roundSubkeys s.key s.rnd.val)⟩ := by
  rw [State.tracePorts, h]

theorem State.tracePorts_dec {s : State} (h : s.fsm = .dec) :
    s.tracePorts = ⟨true, true, BitVec.ofNat 6 s.rnd.val, invStages s.block (roundSubkeys s.key s.rnd.val)⟩ := by
  rw [State.tracePorts, h]

theorem State.tracePorts_idle {s : State} (h : s.fsm = .idle) : s.tracePorts = ⟨false, false, 0, ⟨0, 0, 0⟩⟩ := by
  rw [State.tracePorts, h]

/-- Settles O27: each port is its register, or the test of R31 on it. -/
theorem statusOutputsFollowState : Obligations.StatusOutputsFollowState :=
  fun s _ => ⟨rfl, s.busy_eq, rfl, s.keyValid_eq, rfl, rfl⟩

/-- Settles O28: the trace ports by the controller's state. -/
theorem traceOutputsFollowState : Obligations.TraceOutputsFollowState := by
  intro s rst
  have hr : s.rnd.val < 64 := by omega
  refine ⟨fun h => ?_, fun h => ?_, fun h => ?_⟩
  · simp [State.outputs, State.tracePorts_enc h, hr]
  · simp [State.outputs, State.tracePorts_dec h, hr]
  · simp [State.outputs, State.tracePorts_idle h]

end Sys2Proof.Machine
end

section
/-! SUPPORT. The command word's ignored data bits (30_encoding.md R75), and the obligation of 30_encoding.md about them. -/

namespace Sys2Proof.Machine

/-- Words with one opcode that is no ENCRYPT and no DECRYPT, and with one nibble where it is KEY_NIBBLE, do the same:
`exec_decode` reads no other field of such a word. -/
theorem exec_decode_congr {w w' : CmdWord} (s : State) (hop : opField w = opField w') (henc : opField w ≠ 0b011#3)
    (hdec : opField w ≠ 0b100#3) (hnib : opField w = 0b010#3 → nibbleField w = nibbleField w') :
    exec (decode w) s = exec (decode w') s := by
  rw [exec_decode w, exec_decode w', ← hop]
  by_cases h : opField w = 0b010#3
  · simp only [hnib h, henc, hdec, if_false]
  · simp only [h, henc, hdec, if_false]

/-- Settles O5: the statement's bit ranges are the fields of `exec_decode_congr`. -/
theorem ignoredBitsHaveNoEffect : Obligations.IgnoredBitsHaveNoEffect :=
  fun _ _ s hop henc hdec hnib => exec_decode_congr s hop henc hdec hnib

end Sys2Proof.Machine
end

section
/-! SUPPORT. The key expander and the key schedule (40_key_expander_schedule.md): the answers of KEY_NIBBLE as records,
a key slice as a bus, and the obligations of 40_key_expander_schedule.md R101, R102 and R104. -/

namespace Sys2Proof.Machine

/-- The port `key_valid` is the test of R31 on the key counter, for either `rst`. -/
theorem State.outputs_keyValid (s : State) (rst : Bool) : (s.outputs rst).keyValid = decide (s.kcnt.val = 640) :=
  s.keyValid_eq

/-! ### KEY_NIBBLE (R102) -/

/-- On a complete key KEY_NIBBLE writes its error code alone. -/
theorem execKeyNibble_of_complete (ign : BitVec 23) (v : Nibble) {s : State} (h : s.kcnt = 640) :
    execKeyNibble ign v s = .next { s with err := .keyOverflow } := by
  rcases execKeyNibble_cases ign v s with ⟨-, he⟩ | ⟨hk, -⟩
  · exact he
  · exact absurd h hk

/-- On an incomplete key KEY_NIBBLE writes the slot `KCNT` points at and counts up. -/
theorem execKeyNibble_of_incomplete (ign : BitVec 23) (v : Nibble) {s : State} (h : s.kcnt ≠ 640) :
    execKeyNibble ign v s =
      .next { s with key := keyWriteNibble s.key s.kcnt.val v, kcnt := s.kcnt + 1, err := .ok } := by
  rcases execKeyNibble_cases ign v s with ⟨hk, -⟩ | ⟨-, he⟩
  · exact absurd hk h
  · exact he

/-- Settles O8: the two answers of KEY_NIBBLE, and the bits of the store it writes. -/
theorem keyNibbleWritesSlotOrOverflows : Obligations.KeyNibbleWritesSlotOrOverflows := by
  intro ign v s
  refine ⟨Laws.EncodedInRow.keyNibble ign v, nibbleField_cmdWord 0b010#3 ign v, fun h => ?_, fun h => ?_⟩
  · exact execKeyNibble_of_complete ign v (kcnt_eq_640_iff.mpr h)
  · have hk : s.kcnt ≠ 640 := kcnt_eq_640_iff.not.mpr h
    have hlt : s.kcnt.val < 640 := by omega
    have hcnt : (s.kcnt + 1).val = s.kcnt.val + 1 := kcnt_add_one_val hk
    refine ⟨_, execKeyNibble_of_incomplete ign v hk, rfl, hcnt, fun j _ => ?_, fun rst => ?_⟩
    · have hslot : j < 2560 - 4 * s.kcnt.val ↔ j ≤ 2559 - 4 * s.kcnt.val := by omega
      simp only [getLsbD_keyWriteNibble s.key v hlt j, hslot]
    · simp only [State.outputs_keyValid, hcnt, Nat.reduceEqDiff]

/-! ### The round subkeys (R104) -/

/-- A slice read as a bus: its bit 0 is the store's bus bit `2560 - j - w`. -/
theorem getLsbD_keySlice (key : KeyStore) (j w k : Nat) :
    (keySlice key j w).getLsbD k = (decide (k < w) && key.getLsbD (2560 - j - w + k)) :=
  BitVec.getLsbD_extractLsb' ..

theorem roundSubkeys_mixKey (key : KeyStore) (r : Nat) : (roundSubkeys key r).mixKey = keySlice key (45 * r) 27 := rfl

theorem roundSubkeys_selKey (key : KeyStore) (r : Nat) : (roundSubkeys key r).selKey = keySlice key (45 * r + 27) 18 := rfl

/-- Settles O41: both subkeys are slices, read in document order and as buses. -/
theorem roundSubkeysAreKeySlices : Obligations.RoundSubkeysAreKeySlices := by
  intro key r hr
  have hmix : 2560 - 45 * r - 27 = 2533 - 45 * r := by omega
  have hsel : 2560 - (45 * r + 27) - 18 = 2515 - 45 * r := by omega
  refine ⟨fun i hi => ?_, fun j hj => ?_, fun k hk => ?_, fun k hk => ?_⟩
  · rw [roundSubkeys_mixKey, getMsbD_keySlice key (by omega), decide_eq_true hi, Bool.true_and]
  · rw [roundSubkeys_selKey, getMsbD_keySlice key (by omega), decide_eq_true hj, Bool.true_and]
  · rw [roundSubkeys_mixKey, getLsbD_keySlice, hmix, decide_eq_true hk, Bool.true_and]
  · rw [roundSubkeys_selKey, getLsbD_keySlice, hsel, decide_eq_true hk, Bool.true_and]

/-! ### KEY_RESET (R101) -/

/-- Settles O7: the row of KEY_RESET, its two writes, and the key counter away from its end. -/
theorem keyResetRestartsLoading : Obligations.KeyResetRestartsLoading :=
  fun ign _ => ⟨Laws.EncodedInRow.keyReset ign, rfl, State.outputs_keyValid _⟩

end Sys2Proof.Machine
end

section
/-! SUPPORT. The round function (41_round_function.md): the laws of `Mix`, of the positions of `P` and `P^-1`, of the rows
of the keyed permutation and of the stages of a round, and the obligations R131, R132, R134, R139, R141 and R146. -/

namespace Sys2Proof.Machine

/-! ### The fixed permutation (R132, R134) -/

/-- `P` takes position i to 3i mod 26: the model reads from 9j mod 26, and 9 undoes 3 because 9 * 3 = 27 = 1 mod 26. -/
theorem getMsbD_permP_three_mul (s : Block) {i : Nat} (hi : i < 26) :
    (permP s).getMsbD (3 * i % 26) = s.getMsbD i := by
  have hj : 3 * i % 26 < 26 := Nat.mod_lt _ (by decide)
  have hback : 9 * (3 * i % 26) % 26 = i := by omega
  rw [getMsbD_permP s (by omega), if_pos hj, hback]

/-- Settles O45: a move of `P` is `getMsbD_permP_three_mul`, and `P^-1` is defined by the positions it reads. -/
theorem fixedPermutationMovesPositions : Obligations.FixedPermutationMovesPositions := by
  intro s
  refine ⟨fun i hi => getMsbD_permP_three_mul s hi, ?_, fun i hi => ?_, ?_⟩
  · rw [getMsbD_permP s (by decide), if_neg (by decide)]
  · rw [getMsbD_permPinv s (by omega), if_pos hi]
  · rw [getMsbD_permPinv s (by decide), if_neg (by decide)]

/-! ### Key mixing (R131) -/

theorem getMsbD_mix (s : Block) (mk : MixKey) (i : Nat) : (mix s mk).getMsbD i = (s.getMsbD i ^^ mk.getMsbD i) :=
  BitVec.getMsbD_xor

@[simp] theorem mix_zero (s : Block) : mix s 0 = s := BitVec.xor_zero

@[simp] theorem mix_self (s : Block) : mix s s = 0 := BitVec.xor_self

@[simp] theorem mix_mix (s : Block) (mk : MixKey) : mix (mix s mk) mk = s :=
  calc mix (mix s mk) mk
    _ = mix s (mix mk mk) := BitVec.xor_assoc s mk mk
    _ = s := by rw [mix_self, mix_zero]

/-- Settles O44: the laws of `Mix`. -/
theorem mixIsXorAndSelfInverse : Obligations.MixIsXorAndSelfInverse :=
  fun s mk => ⟨fun i _ => getMsbD_mix s mk i, mix_zero s, mix_mix s mk, mix_self s⟩

/-! ### The keyed permutation (R139, R141) -/

@[simp] theorem getMsbD_groupOf_zero (c0 c1 c2 : Bool) : (groupOf c0 c1 c2).getMsbD 0 = c0 := by
  revert c0 c1 c2; decide

@[simp] theorem getMsbD_groupOf_one (c0 c1 c2 : Bool) : (groupOf c0 c1 c2).getMsbD 1 = c1 := by
  revert c0 c1 c2; decide

@[simp] theorem getMsbD_groupOf_two (c0 c1 c2 : Bool) : (groupOf c0 c1 c2).getMsbD 2 = c2 := by
  revert c0 c1 c2; decide

/-- A group is made of its three bits. -/
@[simp] theorem groupOf_getMsbD (w : Group) : groupOf (w.getMsbD 0) (w.getMsbD 1) (w.getMsbD 2) = w := by
  revert w; decide

/-! The four rows of R139. -/

theorem keyedPerm_00 (w : Group) : keyedPerm w 0b00#2 = w := groupOf_getMsbD w

theorem keyedPerm_01 (w : Group) : keyedPerm w 0b01#2 = groupOf (w.getMsbD 1) (w.getMsbD 0) (w.getMsbD 2) := rfl

theorem keyedPerm_10 (w : Group) : keyedPerm w 0b10#2 = groupOf (w.getMsbD 0) (w.getMsbD 2) (w.getMsbD 1) := rfl

theorem keyedPerm_11 (w : Group) : keyedPerm w 0b11#2 = groupOf (w.getMsbD 2) (w.getMsbD 1) (w.getMsbD 0) := rfl

/-- The selector has four values. -/
theorem selector_values (a : Selector) : a = 0b00#2 ∨ a = 0b01#2 ∨ a = 0b10#2 ∨ a = 0b11#2 := by
  revert a; decide

/-- R141: each row swaps two bits or none, so that it swaps them back. -/
@[simp] theorem keyedPerm_keyedPerm (w : Group) (a : Selector) : keyedPerm (keyedPerm w a) a = w := by
  rcases selector_values a with rfl | rfl | rfl | rfl
  · rw [keyedPerm_00, keyedPerm_00]
  · simp [keyedPerm_01]
  · simp [keyedPerm_10]
  · simp [keyedPerm_11]

/-- Settles O48: the four rows, bit by bit, and the involution. -/
theorem keyedPermutationTable : Obligations.KeyedPermutationTable := by
  intro w a
  refine ⟨?row00, ?row01, ?row10, ?row11, keyedPerm_keyedPerm w a⟩
  case row00 => rintro rfl; exact keyedPerm_00 w
  case row01 => rintro rfl; simp [keyedPerm_01]
  case row10 => rintro rfl; simp [keyedPerm_10]
  case row11 => rintro rfl; simp [keyedPerm_11]

/-! ### The stages of a round (R146) -/

/-- The forward round is the third forward stage (R147). -/
theorem fwdStages_s3 (s : Block) (k : Subkeys) : (fwdStages s k).s3 = fwdRound s k := rfl

/-- The inverse round is the third inverse stage (R148). -/
theorem invStages_s3 (s : Block) (k : Subkeys) : (invStages s k).s3 = invRound s k := rfl

/-- Settles O51: each stage is defined as its function of the stage before it. -/
theorem stagesComposeRounds : Obligations.StagesComposeRounds :=
  fun s k => ⟨rfl, rfl, rfl, rfl, rfl, rfl, (fwdStages_s3 s k).symm, (invStages_s3 s k).symm⟩

end Sys2Proof.Machine
end

section
/-! SUPPORT. The engines (42_engines.md): the answers of an operation's command as records, the ports and the edges of a
busy block, the round sequences of the transaction-level functions, and the obligations R171 to R179. -/

namespace Sys2Proof.Machine

/-! ### NOP and the reserved opcodes (R171, R174) -/

/-- Settles O6: the row of NOP, and its one write. -/
theorem nopOnlyClearsErr : Obligations.NopOnlyClearsErr :=
  fun ign _ => ⟨Laws.EncodedInRow.nop ign, rfl⟩

/-- Settles O11: the rows of the reserved opcodes, each of which is the exception primitive. -/
theorem reservedOnlyReportsIllegal : Obligations.ReservedOnlyReportsIllegal :=
  fun ign s =>
    ⟨⟨Laws.EncodedInRow.reserved101 ign, raiseCmdError_eq .illegalCmd s⟩,
      ⟨Laws.EncodedInRow.reserved110 ign, raiseCmdError_eq .illegalCmd s⟩,
      ⟨Laws.EncodedInRow.reserved111 ign, raiseCmdError_eq .illegalCmd s⟩⟩

/-! ### The ports of a busy block (10_state.md R31) -/

theorem State.outputs_busy_of_running {s : State} (h : s.fsm ≠ .idle) (rst : Bool) : (s.outputs rst).busy = true :=
  decide_eq_true h

theorem State.outputs_cmdReady_of_running {s : State} (h : s.fsm ≠ .idle) (rst : Bool) :
    (s.outputs rst).cmdReady = false := by
  change (!rst && decide (s.fsm = .idle)) = false
  rw [decide_eq_false h, Bool.and_false]

/-! ### ENCRYPT and DECRYPT (R172, R173) -/

/-- Without a complete key an operation's command writes its error code alone. -/
theorem startOrReject_of_incomplete (f : Fsm) (b : Block) (r : Fin 56) {s : State} (h : s.kcnt.val ≠ 640) :
    startOrReject f b r s = .next { s with err := .keyIncomplete } := by
  rcases startOrReject_cases f b r s with ⟨-, he⟩ | ⟨hk, -⟩
  · exact he
  · exact absurd (kcnt_eq_640_iff.mp hk) h

/-- With a complete key an operation's command loads the operation. -/
theorem startOrReject_of_complete (f : Fsm) (b : Block) (r : Fin 56) {s : State} (h : s.kcnt.val = 640) :
    startOrReject f b r s = .next { s with block := b, rnd := r, fsm := f, done := false, err := .ok } := by
  rcases startOrReject_cases f b r s with ⟨hk, -⟩ | ⟨-, he⟩
  · exact absurd (kcnt_eq_640_iff.mpr h) hk
  · exact he

/-- Settles O9: the row of ENCRYPT, and the two answers of a command that starts `encryption_fsm`. -/
theorem encryptStartsOrRejects : Obligations.EncryptStartsOrRejects := fun p _ =>
  ⟨Laws.EncodedInRow.encrypt p, dataField_cmdWord 0b011#3 p, startOrReject_of_incomplete .enc p 0,
    fun h => ⟨_, startOrReject_of_complete .enc p 0 h, rfl, State.outputs_busy_of_running nofun⟩⟩

/-- Settles O10: the row of DECRYPT, and the two answers of a command that starts `decryption_fsm`. -/
theorem decryptStartsOrRejects : Obligations.DecryptStartsOrRejects := fun c _ =>
  ⟨Laws.EncodedInRow.decrypt c, dataField_cmdWord 0b100#3 c, startOrReject_of_incomplete .dec c 55,
    fun h => ⟨_, startOrReject_of_complete .dec c 55 h, rfl, State.outputs_busy_of_running nofun⟩⟩

/-! ### The round edges (R175 to R177) -/

theorem step_eq_encRound {s : State} (hf : s.fsm = .enc) (hr : s.nextInputs.rst = false) :
    step s = .next (encRound (s.setInputs s.inputs.tail)) :=
  edge_enc (s.setInputs s.inputs.tail) hr hf

theorem step_eq_decRound {s : State} (hf : s.fsm = .dec) (hr : s.nextInputs.rst = false) :
    step s = .next (decRound (s.setInputs s.inputs.tail)) :=
  edge_dec (s.setInputs s.inputs.tail) hr hf

/-- Settles O22: the step is `encRound`, whose fields the laws of the round edges give. -/
theorem forwardRoundEdge : Obligations.ForwardRoundEdge := by
  intro s hf hr
  have hready : (s.outputs false).cmdReady = false := State.outputs_cmdReady_of_running (by simp [hf]) false
  refine ⟨_, step_eq_encRound hf hr, encRound_block _, fun h => ?last, fun h => ?mid, encRound_key _, encRound_kcnt _,
    encRound_err _, encRound_inputs _, hready⟩
  case last =>
    have h55 : s.rnd = 55 := Fin.ext h
    simp [h55]
  case mid =>
    have h55 : s.rnd ≠ 55 := fun e => h (congrArg Fin.val e)
    simp [h55, hf, rnd_add_one_val h55]

/-- Settles O23: the step is `decRound`, whose fields the laws of the round edges give. -/
theorem inverseRoundEdge : Obligations.InverseRoundEdge := by
  intro s hf hr
  have hready : (s.outputs false).cmdReady = false := State.outputs_cmdReady_of_running (by simp [hf]) false
  refine ⟨_, step_eq_decRound hf hr, decRound_block _, fun h => ?last, fun h => ?mid, decRound_key _, decRound_kcnt _,
    decRound_err _, decRound_inputs _, hready⟩
  case last =>
    have h0 : s.rnd = 0 := Fin.ext h
    simp [h0]
  case mid =>
    have h0 : s.rnd ≠ 0 := fun e => h (congrArg Fin.val e)
    simp [h0, hf, rnd_sub_one_val h0]

/-- While an operation runs, an edge without reset reads no other input port. -/
theorem edge_congr_of_running {s : State} {d d' : Inputs} (h : s.fsm ≠ .idle) (hd : d.rst = false)
    (hd' : d'.rst = false) : edge s d = edge s d' := by
  cases hf : s.fsm with
  | idle => exact absurd hf h
  | enc => rw [edge_enc s hd hf, edge_enc s hd' hf]
  | dec => rw [edge_dec s hd hf, edge_dec s hd' hf]

/-- Settles O24: both steps are round edges on one state, and the ports do not read the host's script. -/
theorem busyPortIsIgnored : Obligations.BusyPortIsIgnored := by
  intro s d d' rest hf hd hd'
  refine ⟨?_, fun _ => rfl⟩
  rw [step_inputs_cons, step_inputs_cons]
  exact edge_congr_of_running hf hd hd'

/-! ### The transaction-level functions (R178, R179) -/

/-- A sequence that satisfies the recurrence of R178 is the sequence of an encryption's blocks. -/
theorem encryptState_eq_of_rounds {key : KeyStore} {x : Nat → Block}
    (hx : ∀ r < 56, x (r + 1) = fwdRound (x r) (roundSubkeys key r)) {n : Nat} (hn : n ≤ 56) :
    encryptState key (x 0) n = x n := by
  induction n with
  | zero => rfl
  | succ r ih => rw [encryptState, ih (by omega), hx r (by omega)]

/-- A sequence that satisfies the recurrence of R179 is the sequence of a decryption's blocks, counted backward. -/
theorem decryptState_eq_of_rounds {key : KeyStore} {y : Nat → Block}
    (hy : ∀ r < 56, y r = invRound (y (r + 1)) (roundSubkeys key r)) {k : Nat} (hk : k ≤ 56) :
    decryptState key (y 56) k = y (56 - k) := by
  induction k with
  | zero => rfl
  | succ k ih =>
    have hround : 56 - (k + 1) = 55 - k := by omega
    have hprev : 56 - k = 55 - k + 1 := by omega
    rw [decryptState, ih (by omega), hround, hprev, hy (55 - k) (by omega)]

/-- Settles O33: the two sequences at their ends. -/
theorem cipherIsFiftySixRounds : Obligations.CipherIsFiftySixRounds :=
  fun _ _ _ => ⟨fun hx => encryptState_eq_of_rounds hx le_rfl, fun hy => decryptState_eq_of_rounds hy le_rfl⟩

end Sys2Proof.Machine
end

section
/-! SUPPORT. Rejected commands (60_exceptions.md): what a command that leaves an error code in `ERR` has changed, and the
obligation R211. -/

namespace Sys2Proof.Machine

/-- With `rst = 0` an idle block is ready for a command (10_state.md R31). -/
theorem State.outputs_cmdReady_of_idle {s : State} (h : s.fsm = .idle) : (s.outputs false).cmdReady = true :=
  decide_eq_true h

/-- A command that leaves an error code in `ERR` is rejected: every answer of `exec_cases` that writes another register
writes OK to `ERR`. -/
theorem eq_setErr_of_exec {i : Instr} {s t : State} (h : exec i s = .next t) (herr : t.err ≠ .ok) :
    t = s.setErr t.err := by
  rcases exec_cases i s with ⟨c, he⟩ | he | ⟨v, -, he⟩ | ⟨b, -, he⟩ | ⟨b, -, he⟩
  · cases h.symm.trans he; rfl
  all_goals cases h.symm.trans he; exact absurd rfl herr

/-- Settles O13: the step executes the accepted command, which is rejected in IDLE and so leaves the block in IDLE. -/
theorem rejectedCommandChangesOnlyErr : Obligations.RejectedCommandChangesOnlyErr := by
  intro s t hacc hstep herr
  have hexec : exec (decode s.nextInputs.word) (s.setInputs s.inputs.tail) = .next t :=
    (edge_of_accepts ((s.accepts_setInputs s.inputs.tail s.nextInputs).trans hacc)).symm.trans hstep
  have ht : t = (s.setInputs s.inputs.tail).setErr t.err := eq_setErr_of_exec hexec herr
  obtain ⟨-, -, hidle⟩ := State.accepts_iff.mp hacc
  have hfsm : t.fsm = s.fsm := by rw [ht, State.setErr_fsm, State.setInputs_fsm]
  exact ⟨ht, State.outputs_cmdReady_of_idle (hfsm.trans hidle)⟩

end Sys2Proof.Machine
end

section
/-! SUPPORT. Reset (70_reset_and_hazards.md): the edge with `rst = 1`, and the obligation R240. -/

namespace Sys2Proof.Machine

/-- Settles O25: reset has priority at the edge over everything the command port and the state hold. -/
theorem resetEdgeLoadsResetValues : Obligations.ResetEdgeLoadsResetValues :=
  fun s hrst => edge_reset (s.setInputs s.inputs.tail) hrst

end Sys2Proof.Machine
end

section
/-! SUPPORT. Command words and the textual form (30_encoding.md): decoding and encoding undo each other, the word of each
statement, and the obligations R70 to R73 and R79 to R81 about them. -/

namespace Sys2Proof.Machine

/-! ### Decoding and encoding (R70 to R73) -/

@[simp] theorem opField_encode (i : Instr) : opField (encode i) = i.opcode := opField_cmdWord i.opcode i.data

@[simp] theorem dataField_encode (i : Instr) : dataField (encode i) = i.data := dataField_cmdWord i.opcode i.data

@[simp] theorem decode_encode (i : Instr) : decode (encode i) = i := by
  have hop := opField_encode i
  have hdata := dataField_encode i
  cases i with
  | nop => rw [decode_nop hop, hdata, Instr.data]
  | keyReset => rw [decode_keyReset hop, hdata, Instr.data]
  | keyNibble ign v =>
    rw [decode_keyNibble hop]
    exact congrArg₂ Instr.keyNibble (nibbleIgnored_cmdWord _ ign v) (nibbleField_cmdWord _ ign v)
  | encrypt => rw [decode_encrypt hop, hdata, Instr.data]
  | decrypt => rw [decode_decrypt hop, hdata, Instr.data]
  | reserved101 => rw [decode_reserved101 hop, hdata, Instr.data]
  | reserved110 => rw [decode_reserved110 hop, hdata, Instr.data]
  | reserved111 => rw [decode_reserved111 hop, hdata, Instr.data]

/-- Settles O2: both fields of a command's word are read back. -/
theorem decodeOfEncode : Obligations.DecodeOfEncode := fun i _ => decode_encode i

/-- A word decodes to a command with the word's data field. -/
theorem data_decode (w : CmdWord) : (decode w).data = dataField w := by
  rcases opcode_values (opField w) with h | h | h | h | h | h | h | h
  · rw [decode_nop h]; rfl
  · rw [decode_keyReset h]; rfl
  · rw [decode_keyNibble h]; exact nibbleIgnored_append_nibbleField w
  · rw [decode_encrypt h]; rfl
  · rw [decode_decrypt h]; rfl
  · rw [decode_reserved101 h]; rfl
  · rw [decode_reserved110 h]; rfl
  · rw [decode_reserved111 h]; rfl

/-- Settles O3: the decoded command keeps both fields of its word. -/
theorem encodeOfDecode : Obligations.EncodeOfDecode := fun w => by
  rw [encode, opcode_decode, data_decode, cmdWord_fields]

/-- The rows' mask keeps the opcode field of a word and nothing else. -/
theorem and_mask_of_opField {w : CmdWord} {op : Opcode} (h : opField w = op) :
    w &&& 0x38000000#30 = cmdWord op 0#27 := by
  rw [← h, ← Laws.mask_cmdWord _ (dataField w), cmdWord_fields]

/-- Every word lies in a row of the opcode map (30_encoding.md R72, R73). -/
theorem and_mask_values (w : CmdWord) :
    w &&& 0x38000000#30 = 0x00000000#30 ∨ w &&& 0x38000000#30 = 0x08000000#30 ∨ w &&& 0x38000000#30 = 0x10000000#30 ∨
      w &&& 0x38000000#30 = 0x18000000#30 ∨ w &&& 0x38000000#30 = 0x20000000#30 ∨ w &&& 0x38000000#30 = 0x28000000#30 ∨
      w &&& 0x38000000#30 = 0x30000000#30 ∨ w &&& 0x38000000#30 = 0x38000000#30 := by
  rw [and_mask_of_opField rfl]
  generalize opField w = op
  revert op; decide

/-- Settles O4: the mask and the decoder both go by the opcode field. -/
theorem opcodeMapSelectsCommand : Obligations.OpcodeMapSelectsCommand := fun w =>
  ⟨fun h => ⟨and_mask_of_opField h, decode_nop h⟩, fun h => ⟨and_mask_of_opField h, decode_keyReset h⟩,
    fun h => ⟨and_mask_of_opField h, decode_keyNibble h⟩, fun h => ⟨and_mask_of_opField h, decode_encrypt h⟩,
    fun h => ⟨and_mask_of_opField h, decode_decrypt h⟩, fun h => ⟨and_mask_of_opField h, decode_reserved101 h⟩,
    fun h => ⟨and_mask_of_opField h, decode_reserved110 h⟩, fun h => ⟨and_mask_of_opField h, decode_reserved111 h⟩,
    and_mask_values w⟩

/-- Settles O1: each word's opcode field is the one of its command's row. -/
theorem specWordsDecode : Obligations.SpecWordsDecode :=
  ⟨decode_nop rfl, decode_nop rfl, decode_keyReset rfl, decode_keyNibble rfl, decode_keyNibble rfl, decode_encrypt rfl,
    decode_decrypt rfl, decode_reserved101 rfl, decode_reserved110 rfl, decode_reserved111 rfl⟩

/-! ### Statements (R79) -/

/-- The word of `KNIB v`: its row's match value and the nibble below. -/
theorem knibWord_eq_or (v : Nibble) : knibWord v = 0x10000000#30 ||| v.setWidth 30 := by
  have hdata : (0#23 ++ v : DataField).setWidth 30 = v.setWidth 30 := by
    refine BitVec.eq_of_getLsbD_eq fun k hk => ?_
    rw [BitVec.getLsbD_setWidth, BitVec.getLsbD_setWidth, getLsbD_nibbleData]
    by_cases h : k < 4
    · rw [if_pos h]
    · rw [if_neg h, BitVec.getLsbD_zero, BitVec.getLsbD_of_ge v k (Nat.not_lt.mp h)]
  exact (cmdWord_eq_or 0b010#3 (0#23 ++ v)).trans (congrArg (0x10000000#30 ||| ·) hdata)

/-- The word of `ENC p`, for `p` in its range. -/
theorem encode_encrypt_ofNat {p : Nat} (h : p < 2 ^ 27) :
    encode (.encrypt (BitVec.ofNat 27 p)) = 0x18000000#30 ||| BitVec.ofNat 30 p :=
  (cmdWord_eq_or 0b011#3 (BitVec.ofNat 27 p)).trans (congrArg (0x18000000#30 ||| ·) (setWidth_ofNat_of_lt h))

/-- The word of `DEC c`, for `c` in its range. -/
theorem encode_decrypt_ofNat {c : Nat} (h : c < 2 ^ 27) :
    encode (.decrypt (BitVec.ofNat 27 c)) = 0x20000000#30 ||| BitVec.ofNat 30 c :=
  (cmdWord_eq_or 0b100#3 (BitVec.ofNat 27 c)).trans (congrArg (0x20000000#30 ||| ·) (setWidth_ofNat_of_lt h))

/-- Settles O53: an operand in its range gives its row's word, and one outside it none. -/
theorem assemblerEncodesOrRejects : Obligations.AssemblerEncodesOrRejects := by
  refine ⟨rfl, rfl, fun v => ?knib, fun p => ?enc, fun c => ?dec, fun w => ?word⟩
  case knib =>
    exact ite_congr decide_eq_true_eq (fun h => by rw [knibWord_eq_or, setWidth_ofNat_of_lt h]) fun _ => rfl
  case enc => exact ite_congr decide_eq_true_eq (fun h => by rw [encode_encrypt_ofNat h]) fun _ => rfl
  case dec => exact ite_congr decide_eq_true_eq (fun h => by rw [encode_decrypt_ofNat h]) fun _ => rfl
  case word => exact ite_congr decide_eq_true_eq (fun _ => rfl) fun _ => rfl

/-! ### Pseudo-instructions (R80, R81) -/

/-- The nibbles of a string are those of its characters, which are all hex digits. -/
theorem hexDigits?_eq_some_iff {h : List Char} {ds : List Nibble} :
    hexDigits? h = some ds ↔ h.map hexDigit? = ds.map some := by
  induction h generalizing ds with
  | nil => cases ds <;> simp [hexDigits?]
  | cons c cs ih =>
    cases hc : hexDigit? c with
    | none => cases ds <;> simp [hexDigits?, hc]
    | some d =>
      cases hcs : hexDigits? cs with
      | none =>
        have hno (es : List Nibble) : cs.map hexDigit? ≠ es.map some := fun e => by simp [ih.mpr e] at hcs
        cases ds <;> simp [hexDigits?, hc, hcs, hno]
      | some es => cases ds <;> simp [hexDigits?, hc, hcs, ← ih]

/-- A string with a character that is no hex digit has no nibbles. -/
theorem hexDigits?_eq_none {h : List Char} (hbad : ∃ c ∈ h, hexDigit? c = none) : hexDigits? h = none := by
  obtain ⟨c, hc, hnone⟩ := hbad
  refine Option.eq_none_iff_forall_ne_some.mpr fun ds hds => ?_
  have hmem : none ∈ ds.map some := by
    rw [← hexDigits?_eq_some_iff.mp hds, ← hnone]
    exact List.mem_map_of_mem hc
  simp at hmem

theorem assemble_key {h : List Char} {ds : List Nibble} (hlen : h.length = 640) (hds : hexDigits? h = some ds) :
    assemble (.key h) = .ok (keyCommands ds) := by
  have hok : keyStringOk h = true := by simp [keyStringOk, hlen, hds]
  rw [assemble, if_pos hok, hds, Option.getD_some]

theorem assemble_key_malformed {h : List Char} (hbad : h.length ≠ 640 ∨ ∃ c ∈ h, hexDigit? c = none) :
    assemble (.key h) = .error .malformedKey := by
  have hok : keyStringOk h = false := by
    rcases hbad with hlen | hbad
    · simp [keyStringOk, hlen]
    · simp [keyStringOk, hexDigits?_eq_none hbad]
  rw [assemble, hok]; rfl

theorem assemble_encw {p : Nat} (h : p < 2 ^ 27) :
    assemble (.encw p) = .ok [.command (encode (.encrypt (BitVec.ofNat 27 p))), .wait, .read] := by
  rw [assemble, blockInRange, if_pos (decide_eq_true h)]

theorem assemble_decw {c : Nat} (h : c < 2 ^ 27) :
    assemble (.decw c) = .ok [.command (encode (.decrypt (BitVec.ofNat 27 c))), .wait, .read] := by
  rw [assemble, blockInRange, if_pos (decide_eq_true h)]

/-- Settles O54: the expansions, with the words of R79 in them, and the digits' table. -/
theorem pseudoInstructionsExpand : Obligations.PseudoInstructionsExpand := by
  refine ⟨fun h ds hlen hds => ?key, fun h => assemble_key_malformed, rfl, rfl, fun p hp => ?encw, fun c hc => ?decw,
    by decide, by decide, by decide⟩
  case key =>
    rw [assemble_key hlen (hexDigits?_eq_some_iff.mpr hds), keyCommands]
    simp only [knibWord_eq_or]
    rfl
  case encw => rw [assemble_encw hp, encode_encrypt_ofNat hp]
  case decw => rw [assemble_decw hc, encode_decrypt_ofNat hc]

end Sys2Proof.Machine
end

section
/-! SUPPORT. Single edges and what every edge keeps (42_engines.md R183 to R187, 10_state.md R24, R26, R33, R36): the edge of
a known port, the inversion of an executed command by its opcode, and the obligations about the step. -/

namespace Sys2Proof.Machine

/-! ### The edge of a known port (R185 to R187) -/

theorem exists_exec (i : Instr) (s : State) : ∃ t, exec i s = .next t := by
  rcases exec_cases i s with ⟨_, h⟩ | h | ⟨_, -, h⟩ | ⟨_, -, h⟩ | ⟨_, -, h⟩
  all_goals exact ⟨_, h⟩

theorem exists_edge (s : State) (d : Inputs) : ∃ t, edge s d = .next t := by
  rcases edge_cases s d with ⟨-, h⟩ | ⟨-, -, -, h⟩ | ⟨-, -, -, h⟩ | ⟨-, -, h⟩ | ⟨-, -, h⟩
  case inr.inl => rw [h]; exact exists_exec _ s
  all_goals exact ⟨_, h⟩

/-- Settles O12: every kind of edge answers a next state. -/
theorem everyStepAnswersNext : Obligations.EveryStepAnswersNext := fun _ => exists_edge _ _

/-- The word of a command presented on the ports is that word. -/
@[simp] theorem word_present (w : CmdWord) : (Inputs.present w).word = w := cmdWord_fields w

/-- In IDLE the step with a command word at the script's head runs what the word decodes to. -/
theorem step_of_present {s : State} {w : CmdWord} {rest : List Inputs} (hf : s.fsm = .idle)
    (hi : s.inputs = Inputs.present w :: rest) : step s = exec (decode w) { s with inputs := rest } := by
  rw [step_of_inputs s hi, edge_command (s.setInputs rest) rfl hf rfl, word_present]; rfl

/-- Settles O18: the port's entry presents the word. -/
theorem stepRunsDecodedCommand : Obligations.StepRunsDecodedCommand := by
  rintro s w rest i hf hi rfl -
  exact step_of_present hf hi

/-- A command word is a number of 30 bits, which the wider fields of the table and of the script hold as it is. -/
theorem toNat_mod_table (w : CmdWord) : w.toNat % 2 ^ 32 = w.toNat :=
  Nat.mod_eq_of_lt (w.isLt.trans (by decide))

theorem withFetchWord_toNat (s : State) (w : CmdWord) :
    s.withFetchWord 32 w.toNat = { s with fsm := .idle, inputs := Inputs.present w :: s.inputs.tail } := by
  rw [State.withFetchWord, presentNext, toNat_mod_table, if_pos w.isLt, BitVec.ofNat_toNat, BitVec.setWidth_eq]

theorem decodeTableWord_toNat (w : CmdWord) : decodeTableWord 32 w.toNat = some (decode w) := by
  rw [decodeTableWord, toNat_mod_table, decodeNat, if_pos w.isLt, BitVec.ofNat_toNat, BitVec.setWidth_eq]

/-- Settles O19: the word stands at the script's head and fits the table. -/
theorem fetchWordRunsNext : Obligations.FetchWordRunsNext := by
  refine fun s w => ⟨?_, decodeTableWord_toNat w⟩
  rw [withFetchWord_toNat]
  exact step_of_present rfl rfl

/-- Settles O21: a quiet port in IDLE. -/
theorem idleEdgeChangesNoRegister : Obligations.IdleEdgeChangesNoRegister :=
  fun s hf hr hv => edge_quiet (s.setInputs s.inputs.tail) hr hf hv

/-- A sequence of states, each the next one of the state before it, is a run. -/
theorem stepN_of_steps {st : Nat → State} {n : Nat} (h : ∀ k < n, step (st k) = .next (st (k + 1))) :
    stepN n (st 0) = .next (st n) := by
  induction n with
  | zero => rfl
  | succ n ih => rw [stepN_succ (ih fun k hk => h k (Nat.lt_succ_of_lt hk)), h n (Nat.lt_succ_self n)]

/-! ### Registers and outputs after a command -/

/-- The command of opcode `op` starts an operation when the key counter is `k` (R172, R173). -/
abbrev StartsOperation (op : Opcode) (k : Fin 641) : Prop := (op = 0b011#3 ∨ op = 0b100#3) ∧ k.val = 640

/-- What an executed command has done, with the opcodes that can have done it. -/
theorem exec_inversion {i : Instr} {s t : State} (h : exec i s = .next t) :
    (¬StartsOperation i.opcode s.kcnt ∧ ∃ c, t = s.setErr c) ∨
    (¬StartsOperation i.opcode s.kcnt ∧ t = (s.setKcnt 0).setErr .ok) ∨
    (i.opcode = 0b010#3 ∧ s.kcnt.val ≠ 640 ∧ ∃ v, t = ((s.storeNibble v).setKcnt (s.kcnt + 1)).setErr .ok) ∨
    (StartsOperation i.opcode s.kcnt ∧ ∃ f b r, t = (s.startOperation f b r).setErr .ok) := by
  have hstart {f : Fsm} {b : Block} {r : Fin 56} (hop : i.opcode = 0b011#3 ∨ i.opcode = 0b100#3)
      (h : startOrReject f b r s = .next t) :
      (¬StartsOperation i.opcode s.kcnt ∧ ∃ c, t = s.setErr c) ∨
      (StartsOperation i.opcode s.kcnt ∧ ∃ f b r, t = (s.startOperation f b r).setErr .ok) := by
    rcases startOrReject_cases f b r s with ⟨hk, he⟩ | ⟨hk, he⟩
    · cases h.symm.trans he; exact .inl ⟨fun hs => hk (kcnt_eq_640_iff.mpr hs.2), _, rfl⟩
    · cases h.symm.trans he; exact .inr ⟨⟨hop, kcnt_eq_640_iff.mp hk⟩, _, _, _, rfl⟩
  cases i with
  | nop => cases h; exact .inl ⟨by simp [Instr.opcode], _, rfl⟩
  | keyReset => cases h; exact .inr (.inl ⟨by simp [Instr.opcode], rfl⟩)
  | keyNibble ign v =>
    rcases execKeyNibble_cases ign v s with ⟨hk, he⟩ | ⟨hk, he⟩
    · cases h.symm.trans he; exact .inl ⟨by simp [Instr.opcode], _, rfl⟩
    · cases h.symm.trans he; exact .inr (.inr (.inl ⟨rfl, kcnt_eq_640_iff.not.mp hk, v, rfl⟩))
  | encrypt => exact (hstart (.inl rfl) h).imp_right fun hs => .inr (.inr hs)
  | decrypt => exact (hstart (.inr rfl) h).imp_right fun hs => .inr (.inr hs)
  | reserved101 => cases h; exact .inl ⟨by simp [Instr.opcode], _, rfl⟩
  | reserved110 => cases h; exact .inl ⟨by simp [Instr.opcode], _, rfl⟩
  | reserved111 => cases h; exact .inl ⟨by simp [Instr.opcode], _, rfl⟩

/-- A command that starts no operation leaves the controller and the result alone (R183). -/
theorem result_of_exec {i : Instr} {s t : State} (h : exec i s = .next t) (hno : ¬StartsOperation i.opcode s.kcnt) :
    t.fsm = s.fsm ∧ t.block = s.block ∧ t.done = s.done ∧ t.rnd = s.rnd := by
  rcases exec_inversion h with ⟨-, c, rfl⟩ | ⟨-, rfl⟩ | ⟨-, -, v, rfl⟩ | ⟨hs, -⟩
  · exact ⟨rfl, rfl, rfl, rfl⟩
  · exact ⟨rfl, rfl, rfl, rfl⟩
  · exact ⟨rfl, rfl, rfl, rfl⟩
  · exact absurd hs hno

/-- An executed command clears `DONE` when it starts an operation, and leaves it otherwise (10_state.md R26). -/
theorem done_of_exec {i : Instr} {s t : State} (h : exec i s = .next t) :
    t.done = if StartsOperation i.opcode s.kcnt then false else s.done := by
  by_cases hs : StartsOperation i.opcode s.kcnt
  · rw [if_pos hs]
    rcases exec_inversion h with ⟨hno, -⟩ | ⟨hno, -⟩ | ⟨hop, -⟩ | ⟨-, f, b, r, rfl⟩
    · exact absurd hs hno
    · exact absurd hs hno
    · simp [StartsOperation, hop] at hs
    · rfl
  · obtain ⟨-, -, hdone, -⟩ := result_of_exec h hs
    rw [if_neg hs, hdone]

/-- A command that changes `KEY` is a KEY_NIBBLE on an incomplete key (10_state.md R24). -/
theorem key_of_exec {i : Instr} {s t : State} (h : exec i s = .next t) (hkey : t.key ≠ s.key) :
    i.opcode = 0b010#3 ∧ s.kcnt.val ≠ 640 := by
  rcases exec_inversion h with ⟨-, c, rfl⟩ | ⟨-, rfl⟩ | ⟨hop, hk, -⟩ | ⟨-, f, b, r, rfl⟩
  · exact absurd rfl hkey
  · exact absurd rfl hkey
  · exact ⟨hop, hk⟩
  · exact absurd rfl hkey

/-- The command on a port has the port's opcode. -/
@[simp] theorem opcode_decode_word (d : Inputs) : (decode d.word).opcode = d.cmdOp :=
  (opcode_decode d.word).trans (opField_word d)

/-- The round counter is at its end exactly when its value is 55. -/
theorem rnd_eq_last_iff {r : Fin 56} : r = 55 ↔ r.val = 55 := Fin.ext_iff

/-- What one edge leaves in `DONE`. -/
theorem done_of_edge {s t : State} {d : Inputs} (h : edge s d = .next t) :
    t.done =
      if d.rst then false
      else match s.fsm with
        | .idle => if d.cmdValid = true ∧ StartsOperation d.cmdOp s.kcnt then false else s.done
        | .enc => if s.rnd.val = 55 then true else s.done
        | .dec => if s.rnd.val = 0 then true else s.done := by
  rcases edge_cases s d with ⟨hr, he⟩ | ⟨hr, hf, hv, he⟩ | ⟨hr, hf, hv, he⟩ | ⟨hr, hf, he⟩ | ⟨hr, hf, he⟩
  · cases h.symm.trans he; simp [hr]
  · rw [done_of_exec (he.symm.trans h), opcode_decode_word]; simp [hr, hf, hv]
  · cases h.symm.trans he; simp [hr, hf, hv]
  · cases h.symm.trans he; simp [hr, hf, rnd_eq_last_iff]
  · cases h.symm.trans he; simp [hr, hf]

/-- Settles O15: a step is an edge. -/
theorem doneFollowsOperations : Obligations.DoneFollowsOperations :=
  fun s _ h => done_of_edge (s := s.setInputs s.inputs.tail) h

/-- Settles O16: only an accepting edge executes a command, and only KEY_NIBBLE writes `KEY`. -/
theorem keyChangesOnlyByKeyNibble : Obligations.KeyChangesOnlyByKeyNibble := by
  intro s t h hkey
  rcases edge_cases (s.setInputs s.inputs.tail) s.nextInputs with
    ⟨-, he⟩ | ⟨hr, hf, hv, he⟩ | ⟨-, -, -, he⟩ | ⟨-, -, he⟩ | ⟨-, -, he⟩
  case inr.inl =>
    have hop := key_of_exec (he.symm.trans h) hkey
    rw [opcode_decode_word] at hop
    exact ⟨State.accepts_iff.mpr ⟨hr, hv, hf⟩, hop⟩
  all_goals cases h.symm.trans he; exact absurd (by simp) hkey

/-- In IDLE, an edge without reset that starts no operation leaves the controller and the result alone (R183). -/
theorem result_of_edge {s t : State} {d : Inputs} (hf : s.fsm = .idle) (hr : d.rst = false)
    (hno : ¬(d.cmdValid = true ∧ StartsOperation d.cmdOp s.kcnt)) (h : edge s d = .next t) :
    t.fsm = s.fsm ∧ t.block = s.block ∧ t.done = s.done ∧ t.rnd = s.rnd := by
  cases hv : d.cmdValid with
  | false => cases h.symm.trans (edge_quiet s hr hf hv); exact ⟨rfl, rfl, rfl, rfl⟩
  | true =>
    refine result_of_exec ((edge_command s hr hf hv).symm.trans h) fun hs => hno ⟨hv, ?_⟩
    rwa [opcode_decode_word] at hs

/-- Settles O17: the step is an edge that starts no operation, and `dout` and `done` are two of the registers it leaves. -/
theorem resultStaysUntilNextOperation : Obligations.ResultStaysUntilNextOperation := by
  intro s t hf hr hno h
  obtain ⟨hfsm, hblock, hdone, hrnd⟩ := result_of_edge (s := s.setInputs s.inputs.tail) hf hr hno h
  exact ⟨hfsm.trans hf, hblock, hdone, hrnd, fun _ => ⟨hblock, hdone⟩⟩

/-! ### The invariant of the reachable states (10_state.md R33, R36) -/

/-- In IDLE the invariant is about the round counter alone. -/
theorem State.inv_iff_of_idle {s : State} (hf : s.fsm = .idle) : s.Inv ↔ s.rnd.val = 55 ∨ s.rnd.val = 0 := by
  have hk : s.kcnt.val ≤ 640 := by omega
  simpa [State.Inv, hf, hk] using fun h _ => h

/-- While an operation runs the invariant is that the key is complete and `DONE` is 0. -/
theorem State.inv_iff_of_running {s : State} (hf : s.fsm ≠ .idle) : s.Inv ↔ s.kcnt.val = 640 ∧ s.done = false := by
  have hr : s.rnd.val ≤ 55 := by omega
  have hk : s.kcnt.val ≤ 640 := by omega
  cases h : s.fsm with
  | idle => exact absurd h hf
  | enc => simp [State.Inv, h, hr, hk]
  | dec => simp [State.Inv, h, hr, hk]

theorem inv_of_exec {i : Instr} {s t : State} (hf : s.fsm = .idle) (hs : s.Inv) (h : exec i s = .next t) : t.Inv := by
  have hrnd := (State.inv_iff_of_idle hf).mp hs
  rcases exec_cases i s with ⟨c, he⟩ | he | ⟨v, -, he⟩ | ⟨b, hk, he⟩ | ⟨b, hk, he⟩
  · cases h.symm.trans he; exact (State.inv_iff_of_idle (by exact hf)).mpr hrnd
  · cases h.symm.trans he; exact (State.inv_iff_of_idle (by exact hf)).mpr hrnd
  · cases h.symm.trans he; exact (State.inv_iff_of_idle (by exact hf)).mpr hrnd
  · cases h.symm.trans he; exact (State.inv_iff_of_running (by simp)).mpr ⟨kcnt_eq_640_iff.mp hk, rfl⟩
  · cases h.symm.trans he; exact (State.inv_iff_of_running (by simp)).mpr ⟨kcnt_eq_640_iff.mp hk, rfl⟩

theorem inv_encRound {s : State} (hf : s.fsm = .enc) (hs : s.Inv) : (encRound s).Inv := by
  by_cases h : s.rnd = 55
  · exact (State.inv_iff_of_idle (by simp [h])).mpr (.inl (by simp [h]))
  · have hrun := (State.inv_iff_of_running (by simp [hf])).mp hs
    exact (State.inv_iff_of_running (by simp [h, hf])).mpr (by simpa [h] using hrun)

theorem inv_decRound {s : State} (hf : s.fsm = .dec) (hs : s.Inv) : (decRound s).Inv := by
  by_cases h : s.rnd = 0
  · exact (State.inv_iff_of_idle (by simp [h])).mpr (.inr (by simp [h]))
  · have hrun := (State.inv_iff_of_running (by simp [hf])).mp hs
    exact (State.inv_iff_of_running (by simp [h, hf])).mpr (by simpa [h] using hrun)

theorem inv_of_edge {s t : State} {d : Inputs} (hs : s.Inv) (h : edge s d = .next t) : t.Inv := by
  rcases edge_cases s d with ⟨-, he⟩ | ⟨-, hf, -, he⟩ | ⟨-, -, -, he⟩ | ⟨-, hf, he⟩ | ⟨-, hf, he⟩
  · cases h.symm.trans he; exact (State.inv_iff_of_idle rfl).mpr (.inr rfl)
  · exact inv_of_exec hf hs (he.symm.trans h)
  · cases h.symm.trans he; exact hs
  · cases h.symm.trans he; exact inv_encRound hf hs
  · cases h.symm.trans he; exact inv_decRound hf hs

/-- Settles O30: every kind of edge keeps the invariant, which does not read the script. -/
theorem reachableInvKeptByStep : Obligations.ReachableInvKeptByStep :=
  fun s _ hs h => inv_of_edge (s := s.setInputs s.inputs.tail) hs h

/-- Settles O29: in IDLE with the round counter at 0. -/
theorem reachableInvHoldsAtReset : Obligations.ReachableInvHoldsAtReset :=
  (State.inv_iff_of_idle rfl).mpr (.inr rfl)

/-- Settles O26: the registers of the reset state, and the ports as their functions. -/
theorem resetStateValues : Obligations.ResetStateValues := by
  unfold Obligations.ResetStateValues
  decide

end Sys2Proof.Machine
end

section
/-! SUPPORT. The key store as slots (20_memory.md R51 to R54), the expanded key (40_key_expander_schedule.md R100), the key
bits the schedule reads (R107, 10_state.md R34), and the obligations about them. -/

namespace Sys2Proof.Machine

/-! ### Slots and slices (R51 to R54) -/

/-- Settles O36: `getLsbD_keyWriteNibble` with the slot's upper bound as the bus index of its top bit. -/
theorem keyWriteTouchesOnlyItsSlot : Obligations.KeyWriteTouchesOnlyItsSlot := by
  intro key n v hn j _
  have hslot : j < 2560 - 4 * n ↔ j ≤ 2559 - 4 * n := by omega
  simp only [getLsbD_keyWriteNibble key v hn j, hslot]

/-- A slot of the store after a write to slot `n`. -/
theorem keySlot_keyWriteNibble (key : KeyStore) {n m : Nat} (v : Nibble) (hn : n < 640) (hm : m < 640) :
    keySlot (keyWriteNibble key n v) m = if m = n then v else keySlot key m := by
  refine BitVec.eq_of_getLsbD_eq fun k hk => ?_
  rw [getLsbD_keySlot, getLsbD_keyWriteNibble key v hn, decide_eq_true hk, Bool.true_and]
  by_cases h : m = n
  · have hbit : 2556 - 4 * m + k - (2556 - 4 * n) = k := by omega
    rw [if_pos h, if_pos (by omega), hbit]
  · rw [if_neg h, if_neg (by omega), getLsbD_keySlot, decide_eq_true hk, Bool.true_and]

/-- A document index of the store is a bit of its slot, most significant first (R54). -/
theorem getMsbD_eq_keySlot (key : KeyStore) {n b : Nat} (hn : n < 640) (hb : b < 4) :
    key.getMsbD (4 * n + b) = (keySlot key n).getLsbD (3 - b) := by
  have hi : 4 * n + b < 2560 := by omega
  have h4 : 3 - b < 4 := by omega
  have hbus : 2560 - 1 - (4 * n + b) = 2556 - 4 * n + (3 - b) := by omega
  rw [getLsbD_keySlot, decide_eq_true h4, BitVec.getMsbD, decide_eq_true hi, hbus]

/-- Settles O37: slots read back as `keySlot_keyWriteNibble` says, in document order too. -/
theorem slotReadsBackWhatWasWritten : Obligations.SlotReadsBackWhatWasWritten := by
  intro key n v hn
  have hsame : keySlot (keyWriteNibble key n v) n = v := by rw [keySlot_keyWriteNibble key v hn hn, if_pos rfl]
  refine ⟨hsame, fun b hb => ?_, fun m hm hne => ?_⟩
  · rw [getMsbD_eq_keySlot _ hn hb, hsame]
  · rw [keySlot_keyWriteNibble key v hn hm, if_neg hne]

/-- Settles O38: a slice in document order and as a bus. -/
theorem keySliceReadsDocumentOrder : Obligations.KeySliceReadsDocumentOrder := by
  intro key j w hjw i hi
  rw [getMsbD_keySlice key hjw, getLsbD_keySlice, decide_eq_true hi, Bool.true_and, Bool.true_and]
  exact ⟨rfl, rfl⟩

/-! ### The expanded key (R100) -/

/-- One more nibble moves the others up and takes the lowest place. -/
theorem expandKey_concat (d : List Nibble) (v : Nibble) :
    expandKey (d ++ [v]) = (expandKey d <<< 4) ||| v.setWidth 2560 := by
  rw [expandKey, List.foldl_append]; rfl

/-- Counted from the least significant end, the expanded key's nibbles are the list's from its end. -/
theorem getLsbD_expandKey (d : List Nibble) {m k : Nat} (hk : k < 4) (hm : m < 640) :
    (expandKey d).getLsbD (4 * m + k) = (d.reverse.getD m 0).getLsbD k := by
  induction d using List.reverseRecOn generalizing m with
  | nil => simp [expandKey]
  | append_singleton d v ih =>
    have hbit : 4 * m + k < 2560 := by omega
    rw [expandKey_concat, BitVec.getLsbD_or, BitVec.getLsbD_shiftLeft, BitVec.getLsbD_setWidth, List.reverse_concat]
    cases m with
    | zero =>
      have hk' : k < 2560 := by omega
      simp [hk, hk']
    | succ m =>
      have hv : v.getLsbD (4 * (m + 1) + k) = false := BitVec.getLsbD_of_ge v _ (by omega)
      have h4 : ¬4 * (m + 1) + k < 4 := by omega
      have hprev : 4 * (m + 1) + k - 4 = 4 * m + k := by omega
      simp [hv, h4, hprev, hbit, ih (by omega : m < 640)]

/-- A slot of the expanded key of 640 nibbles is the nibble of its number. -/
theorem keySlot_expandKey {d : List Nibble} (hd : d.length = 640) {n : Nat} (hn : n < 640) :
    keySlot (expandKey d) n = d.getD n 0 := by
  refine BitVec.eq_of_getLsbD_eq fun k hk => ?_
  have hplace : 2556 - 4 * n + k = 4 * (639 - n) + k := by omega
  have hrev : d.reverse.getD (639 - n) 0 = d.getD n 0 := by
    have hfront : d.length - 1 - (639 - n) = n := by omega
    rw [List.getD_eq_getElem?_getD, List.getElem?_reverse (by omega), hfront, List.getD_eq_getElem?_getD]
  rw [getLsbD_keySlot, decide_eq_true hk, Bool.true_and, hplace, getLsbD_expandKey d hk (by omega), hrev]

/-- Settles O39: a document index is a bit of its slot, and the slots are the nibbles. -/
theorem expandKeyPutsNibbleBitsInOrder : Obligations.ExpandKeyPutsNibbleBitsInOrder := fun d hd n hn b hb => by
  rw [getMsbD_eq_keySlot _ hn hb, keySlot_expandKey hd hn]

/-! ### Loading a key (R100, R102) -/

/-- The store after `d 0`, …, `d (n - 1)` are written to the slots 0, …, n - 1. -/
def writeSlots (key : KeyStore) (d : Nat → Nibble) : Nat → KeyStore
  | 0 => key
  | n + 1 => keyWriteNibble (writeSlots key d n) n (d n)

theorem keySlot_writeSlots (key : KeyStore) (d : Nat → Nibble) {n m : Nat} (hn : n ≤ 640) (hm : m < 640) :
    keySlot (writeSlots key d n) m = if m < n then d m else keySlot key m := by
  induction n with
  | zero => rfl
  | succ n ih =>
    rw [writeSlots, keySlot_keyWriteNibble _ _ hn hm, ih (Nat.le_of_succ_le hn)]
    rcases Nat.lt_trichotomy m n with h | rfl | h
    · simp [h, h.ne, Nat.lt_succ_of_lt h]
    · simp
    · simp [h.ne', Nat.not_lt.mpr h.le, Nat.not_lt.mpr (Nat.succ_le_of_lt h)]

/-- All 640 slots written are the expanded key, whatever the store held before. -/
theorem writeSlots_eq_expandKey (key : KeyStore) {d : List Nibble} (hd : d.length = 640) :
    writeSlots key (fun n => d.getD n 0) 640 = expandKey d :=
  eq_of_keySlot_eq fun n hn => by rw [keySlot_writeSlots key _ le_rfl hn, if_pos hn, keySlot_expandKey hd hn]

/-- The nibble of a port's KEY_NIBBLE is in the low bits of its data. -/
theorem nibbleField_word (d : Inputs) : nibbleField d.word = d.cmdData.extractLsb' 0 4 := by
  refine BitVec.eq_of_getLsbD_eq fun k hk => ?_
  have h27 : k < 27 := by omega
  rw [nibbleField, BitVec.getLsbD_extractLsb', BitVec.getLsbD_extractLsb', Nat.zero_add]
  exact congrArg (decide (k < 4) && ·) ((getLsbD_cmdWord d.cmdOp d.cmdData k).trans (if_pos h27))

/-- The port values of an accepted KEY_NIBBLE. -/
abbrev LoadsNibble (d : Inputs) : Prop := d.rst = false ∧ d.cmdValid = true ∧ d.cmdOp = 0b010#3

/-- The nibbles that port values carry. -/
def nibbles (load : List Inputs) : List Nibble := load.map fun d => d.cmdData.extractLsb' 0 4

theorem nibbles_getD {load : List Inputs} {n : Nat} (hn : n < load.length) :
    (nibbles load).getD n 0 = nibbleField load[n].word := by
  rw [nibbleField_word, List.getD_eq_getElem _ _ (by rwa [nibbles, List.length_map])]
  simp [nibbles]

/-- `s` after the first `n` nibbles of `load`: their slots are written and the key counter is at `n`. -/
def loadTrack (s : State) (load rest : List Inputs) (n : Nat) : State :=
  { s with key := writeSlots s.key (fun m => (nibbles load).getD m 0) n, kcnt := Fin.ofNat 641 n,
           err := if n = 0 then s.err else .ok, inputs := load.drop n ++ rest }

theorem step_loadTrack {s : State} {load : List Inputs} (rest : List Inputs) (hf : s.fsm = .idle)
    (hload : ∀ d ∈ load, LoadsNibble d) {n : Nat} (hn : n < load.length) (h640 : n < 640) :
    step (loadTrack s load rest n) = .next (loadTrack s load rest (n + 1)) := by
  obtain ⟨hr, hv, ho⟩ := hload load[n] (List.getElem_mem hn)
  have hval : (Fin.ofNat 641 n).val = n := Nat.mod_eq_of_lt (by omega)
  have hcnt : Fin.ofNat 641 n ≠ 640 := fun e => h640.ne (hval.symm.trans (congrArg Fin.val e))
  have hnext : Fin.ofNat 641 n + 1 = Fin.ofNat 641 (n + 1) :=
    Fin.ext ((kcnt_add_one_val hcnt).trans (by rw [hval]; exact (Nat.mod_eq_of_lt (by omega)).symm))
  have hinputs : (loadTrack s load rest n).inputs = load[n] :: (load.drop (n + 1) ++ rest) :=
    congrArg (· ++ rest) (List.drop_eq_getElem_cons hn)
  have hstep := step_writesNibble (loadTrack s load rest n) hf hcnt hinputs hr hv ho
  simp only [loadTrack, hnext, hval, ← nibbles_getD hn] at hstep
  exact hstep

/-- Settles O40: 640 nibbles written are the expanded key. -/
theorem keyLoadYieldsExpandedKey : Obligations.KeyLoadYieldsExpandedKey := by
  intro s load rest hf hk hlen hload hi
  have hstart : loadTrack s load rest 0 = s := by
    have hk0 : Fin.ofNat 641 0 = s.kcnt := Fin.ext hk.symm
    rw [loadTrack, hk0, List.drop_zero, ← hi]; rfl
  have hrun := stepN_of_steps (st := loadTrack s load rest) (n := 640)
    fun n hn => step_loadTrack rest hf hload (by omega) hn
  rw [hstart] at hrun
  rw [hrun, loadTrack, writeSlots_eq_expandKey s.key (by rw [nibbles, List.length_map, hlen]),
    List.drop_eq_nil_of_le hlen.le]
  rfl

/-! ### The key bits that are read (R104, R107) -/

theorem encryptState_congr {a b : KeyStore} {n : Nat} (h : ∀ r < n, roundSubkeys a r = roundSubkeys b r) (p : Block) :
    encryptState a p n = encryptState b p n := by
  induction n with
  | zero => rfl
  | succ n ih => rw [encryptState, encryptState, ih fun r hr => h r (Nat.lt_succ_of_lt hr), h n (Nat.lt_succ_self n)]

theorem decryptState_congr {a b : KeyStore} (h : ∀ r < 56, roundSubkeys a r = roundSubkeys b r) (c : Block) (k : Nat) :
    decryptState a c k = decryptState b c k := by
  induction k with
  | zero => rfl
  | succ k ih => rw [decryptState, decryptState, ih, h (55 - k) (by omega)]

/-- Settles O42: the last round's subkeys end at document index 45 * 55 + 44 = 2519. -/
theorem lastFortyKeyBitsUnread : Obligations.LastFortyKeyBitsUnread := by
  intro a b h p
  have hsub : ∀ r < 56, roundSubkeys a r = roundSubkeys b r := fun r hr =>
    roundSubkeys_congr hr fun j _ hj => h j (by omega)
  exact ⟨encryptState_congr hsub p, decryptState_congr hsub p 56⟩

/-- Stores with the same first 630 slots have the same subkeys in every round. -/
theorem roundSubkeys_congr_of_keySlot {a b : KeyStore} (h : ∀ n < 630, keySlot a n = keySlot b n) {r : Nat} (hr : r < 56) :
    roundSubkeys a r = roundSubkeys b r := by
  refine roundSubkeys_congr hr fun j _ hj => ?_
  have hb : j % 4 < 4 := Nat.mod_lt _ (by decide)
  rw [← Nat.div_add_mod j 4, getMsbD_eq_keySlot a (by omega) hb, getMsbD_eq_keySlot b (by omega) hb, h _ (by omega)]

end Sys2Proof.Machine
end

section
/-! SUPPORT. The inverse laws of the round function (41_round_function.md R133 to R145, R148), the obligations about them,
and the cipher's round trip (42_engines.md R181), which follows from them round by round. -/

namespace Sys2Proof.Machine

/-! ### The fixed permutation (R133 to R136) -/

/-- `P` undoes `P^-1`: 3 * 9 = 27 = 1 mod 26. -/
@[simp] theorem permP_permPinv (s : Block) : permP (permPinv s) = s := by
  refine BitVec.eq_of_getMsbD_eq fun j hj => ?_
  rw [getMsbD_permP _ hj]
  by_cases h : j < 26
  · have hsrc : 9 * j % 26 < 26 := Nat.mod_lt _ (by decide)
    have hback : 3 * (9 * j % 26) % 26 = j := by omega
    rw [if_pos h, getMsbD_permPinv _ (by omega), if_pos hsrc, hback]
  · have h26 : j = 26 := by omega
    rw [if_neg h, getMsbD_permPinv _ (by decide), if_neg (by decide), h26]

/-- `P^-1` is `P` twice: 9 * 9 = 81 = 3 mod 26. -/
theorem permP_permP (s : Block) : permP (permP s) = permPinv s := by
  refine BitVec.eq_of_getMsbD_eq fun j hj => ?_
  rw [getMsbD_permP _ hj, getMsbD_permPinv _ hj]
  by_cases h : j < 26
  · have hsrc : 9 * j % 26 < 26 := Nat.mod_lt _ (by decide)
    have htwice : 9 * (9 * j % 26) % 26 = 3 * j % 26 := by omega
    rw [if_pos h, if_pos h, getMsbD_permP _ (by omega), if_pos hsrc, htwice]
  · rw [if_neg h, if_neg h, getMsbD_permP _ (by decide), if_neg (by decide)]

/-- `P^-1` undoes `P`, since both compositions are `P` three times. -/
@[simp] theorem permPinv_permP (s : Block) : permPinv (permP s) = s :=
  calc permPinv (permP s)
    _ = permP (permP (permP s)) := (permP_permP (permP s)).symm
    _ = permP (permPinv s) := congrArg permP (permP_permP s)
    _ = s := permP_permPinv s

/-- Settles O46: `P^-1` is `P` twice, and `P` undoes it. -/
theorem fixedPermutationInverseAndOrder : Obligations.FixedPermutationInverseAndOrder := fun s =>
  ⟨permPinv_permP s, permP_permPinv s, by rw [permP_permP, permPinv_permP], (permP_permP s).symm⟩

/-- Bus bit 26 - k of a block is its document index k. -/
theorem getLsbD_26_sub (x : Block) {k : Nat} (hk : k < 27) : x.getLsbD (26 - k) = x.getMsbD k := by
  rw [BitVec.getMsbD, decide_eq_true hk, Bool.true_and]

/-- A bus bit of `P`'s result, read at the document index `P` takes it from. -/
theorem getLsbD_permP (x : Block) {k : Nat} (hk : k < 27) :
    (permP x).getLsbD (26 - k) = x.getLsbD (26 - if k < 26 then 9 * k % 26 else 26) := by
  have hsrc : (if k < 26 then 9 * k % 26 else 26) < 27 := by split <;> omega
  rw [getLsbD_26_sub _ hk, getLsbD_26_sub _ hsrc, getMsbD_permP x hk, apply_ite x.getMsbD]

/-- A bus bit of the result of `P^-1`, read at the document index `P^-1` takes it from. -/
theorem getLsbD_permPinv (x : Block) {k : Nat} (hk : k < 27) :
    (permPinv x).getLsbD (26 - k) = x.getLsbD (26 - if k < 26 then 3 * k % 26 else 26) := by
  have hsrc : (if k < 26 then 3 * k % 26 else 26) < 27 := by split <;> omega
  rw [getLsbD_26_sub _ hk, getLsbD_26_sub _ hsrc, getMsbD_permPinv x hk, apply_ite x.getMsbD]

/-- The wiring list of R133 holds the places `P` reads, from output bit 26 down. -/
theorem permP_wiring : ∀ k < 27, (26 - if k < 26 then 9 * k % 26 else 26) =
    [26, 17, 8, 25, 16, 7, 24, 15, 6, 23, 14, 5, 22, 13, 4, 21, 12, 3, 20, 11, 2, 19, 10, 1, 18, 9, 0].getD k 0 := by
  decide

/-- The wiring list of R135 holds the places `P^-1` reads, from output bit 26 down. -/
theorem permPinv_wiring : ∀ k < 27, (26 - if k < 26 then 3 * k % 26 else 26) =
    [26, 23, 20, 17, 14, 11, 8, 5, 2, 25, 22, 19, 16, 13, 10, 7, 4, 1, 24, 21, 18, 15, 12, 9, 6, 3, 0].getD k 0 := by
  decide

/-- Settles O47: each output bit is read from its source place, and the lists hold those places. -/
theorem fixedPermutationWiring : Obligations.FixedPermutationWiring := fun x k hk =>
  ⟨by rw [getLsbD_permP x hk, permP_wiring k hk], by rw [getLsbD_permPinv x hk, permPinv_wiring k hk]⟩

/-! ### Substitution and the layers (R142 to R145) -/

@[simp] theorem sboxInv_sbox (w : Group) : sboxInv (sbox w) = w := by revert w; decide

@[simp] theorem sbox_sboxInv (w : Group) : sbox (sboxInv w) = w := by revert w; decide

/-- Settles O49: the two tables, and their inverse laws. -/
theorem substitutionTables : Obligations.SubstitutionTables :=
  ⟨by decide, by decide, fun w => ⟨sboxInv_sbox w, sbox_sboxInv w⟩⟩

theorem grp_layer (s : Block) (pk : SelKey) {g : Nat} (hg : g < 9) :
    grp (layer s pk) g = sbox (keyedPerm (grp s g) (sel pk g)) := grp_ofGroups _ hg

theorem grp_invLayer (t : Block) (pk : SelKey) {g : Nat} (hg : g < 9) :
    grp (invLayer t pk) g = keyedPerm (sboxInv (grp t g)) (sel pk g) := grp_ofGroups _ hg

/-- The inverse layer undoes the layer, group by group. -/
@[simp] theorem invLayer_layer (s : Block) (pk : SelKey) : invLayer (layer s pk) pk = s :=
  eq_of_grp_eq fun g hg => by rw [grp_invLayer _ _ hg, grp_layer _ _ hg, sboxInv_sbox, keyedPerm_keyedPerm]

/-- The layer undoes the inverse layer, group by group. -/
@[simp] theorem layer_invLayer (t : Block) (pk : SelKey) : layer (invLayer t pk) pk = t :=
  eq_of_grp_eq fun g hg => by rw [grp_layer _ _ hg, grp_invLayer _ _ hg, keyedPerm_keyedPerm, sbox_sboxInv]

/-- Settles O50: the groups of the layers, and the inverse law they give. -/
theorem layersActGroupByGroup : Obligations.LayersActGroupByGroup := fun s pk _ hg =>
  ⟨grp_layer s pk hg, grp_invLayer s pk hg, invLayer_layer s pk⟩

/-! ### Rounds and the cipher (R148, R181) -/

@[simp] theorem invRound_fwdRound (s : Block) (k : Subkeys) : invRound (fwdRound s k) k = s := by
  rw [invRound, fwdRound, invLayer_layer, permPinv_permP, mix_mix]

@[simp] theorem fwdRound_invRound (s : Block) (k : Subkeys) : fwdRound (invRound s k) k = s := by
  rw [fwdRound, invRound, mix_mix, permP_permPinv, layer_invLayer]

/-- Settles O52: the three stages undo each other in reverse order. -/
theorem inverseRoundUndoesForwardRound : Obligations.InverseRoundUndoesForwardRound := fun s k =>
  ⟨invRound_fwdRound s k, fwdRound_invRound s k⟩

/-- The blocks of an encryption, counted backward, are the blocks of a decryption of its result. -/
theorem decrypt_encrypt (b : Block) (key : KeyStore) : decrypt (encrypt b key) key = b :=
  decryptState_eq_of_rounds (y := encryptState key b) (fun _ _ => by rw [encryptState, invRound_fwdRound]) le_rfl

/-- The blocks of a decryption, counted backward, are the blocks of an encryption of its result. -/
theorem encrypt_decrypt (b : Block) (key : KeyStore) : encrypt (decrypt b key) key = b := by
  refine encryptState_eq_of_rounds (x := fun r => decryptState key b (56 - r)) (fun r hr => ?_) le_rfl
  have hprev : 56 - r = 55 - r + 1 := by omega
  have hround : 55 - (55 - r) = r := by omega
  have hnext : 56 - (r + 1) = 55 - r := by omega
  rw [hprev, hnext, decryptState, hround, fwdRound_invRound]

/-- Settles O34: both directions of the round trip. -/
theorem decryptInvertsEncrypt : Obligations.DecryptInvertsEncrypt := fun b key =>
  ⟨decrypt_encrypt b key, encrypt_decrypt b key⟩

end Sys2Proof.Machine
end

section
/-! SUPPORT. Whole operations (42_engines.md R180, R184): the states an operation passes through, as a sequence each round
edge takes one step along; what a run of steps, a trace sink and a waiting host see of such a sequence; and the
obligations of both directions. -/

namespace Sys2Proof.Machine

/-! ### Runs of 56 round edges -/

/-- The states `st 0`, …, `st 55` are busy, and each edge without reset goes from one of them to the next and to `st 56`,
whatever else stands on the ports and on the host's script. -/
def IsOperation (st : Nat → State) : Prop :=
  ∀ k < 56, (st k).fsm ≠ .idle ∧
    ∀ (l : List Inputs) (d : Inputs), d.rst = false → edge ((st k).setInputs l) d = .next ((st (k + 1)).setInputs l)

/-- `k` steps into an operation the block is in its state `k`. -/
theorem stepN_of_isOperation {st : Nat → State} (hst : IsOperation st) {l : List Inputs}
    (hl : ∀ d ∈ l.take 56, d.rst = false) {k : Nat} (hk : k ≤ 56) :
    stepN k ((st 0).setInputs l) = .next ((st k).setInputs (l.drop k)) := by
  refine stepN_of_steps (st := fun k => (st k).setInputs (l.drop k)) fun n hn => ?_
  obtain ⟨-, hedge⟩ := hst n (by omega)
  rw [← List.tail_drop]
  exact hedge (l.drop n).tail _ (headD_drop_rst hl (by omega))

/-- A host that waits from state `k` of an operation on, for the edges left, sees its end. -/
theorem waitIdle_of_isOperation {st : Nat → State} (hst : IsOperation st) (l : List Inputs) {fuel k : Nat}
    (hk : k + fuel = 56) : waitIdle fuel ((st k).setInputs l) = .next ((st 56).setInputs l) := by
  induction fuel generalizing k with
  | zero => rw [← hk]; rfl
  | succ fuel ih =>
    obtain ⟨hbusy, hedge⟩ := hst k (by omega)
    have hwait : ((st k).setInputs l).busy = true := decide_eq_true hbusy
    rw [waitIdle, if_pos hwait, hedge l Inputs.quiet rfl]
    exact ih (by omega)

/-! ### The states of an encryption and of a decryption -/

/-- `s` after `k` edges of an encryption of `p`: round `k` with `STATE = x_k`, and the result from 56 on. -/
def encTrack (s : State) (p : Block) (k : Nat) : State :=
  if h : k < 56 then
    { s with fsm := .enc, rnd := ⟨k, h⟩, block := encryptState s.key p k, done := false, err := .ok }
  else { s with fsm := .idle, rnd := 55, block := encrypt p s.key, done := true, err := .ok }

/-- `s` after `k` edges of a decryption of `c`: round `55 - k` with `STATE = y_{56-k}`, and the result from 56 on. -/
def decTrack (s : State) (c : Block) (k : Nat) : State :=
  if k < 56 then
    { s with fsm := .dec, rnd := ⟨55 - k, by omega⟩, block := decryptState s.key c k, done := false, err := .ok }
  else { s with fsm := .idle, rnd := 0, block := decrypt c s.key, done := true, err := .ok }

theorem encTrack_of_lt (s : State) (p : Block) {k : Nat} (h : k < 56) : encTrack s p k =
    { s with fsm := .enc, rnd := ⟨k, h⟩, block := encryptState s.key p k, done := false, err := .ok } := dif_pos h

theorem encTrack_end (s : State) (p : Block) : encTrack s p 56 =
    { s with fsm := .idle, rnd := 55, block := encrypt p s.key, done := true, err := .ok } := rfl

theorem decTrack_of_lt (s : State) (c : Block) {k : Nat} (h : k < 56) : decTrack s c k =
    { s with fsm := .dec, rnd := ⟨55 - k, by omega⟩, block := decryptState s.key c k, done := false, err := .ok } :=
  if_pos h

theorem decTrack_end (s : State) (c : Block) : decTrack s c 56 =
    { s with fsm := .idle, rnd := 0, block := decrypt c s.key, done := true, err := .ok } := rfl

theorem encRound_encTrack (s : State) (p : Block) {k : Nat} (hk : k < 56) :
    encRound (encTrack s p k) = encTrack s p (k + 1) := by
  rw [encTrack_of_lt s p hk, encRound]
  by_cases hlast : k = 55
  · subst hlast; rfl
  · have hrnd : (⟨k, hk⟩ : Fin 56) ≠ 55 := fun e => hlast (congrArg Fin.val e)
    have hnext : (⟨k, hk⟩ : Fin 56) + 1 = ⟨k + 1, by omega⟩ := Fin.ext (rnd_add_one_val hrnd)
    rw [encTrack_of_lt s p (by omega), ← hnext]
    exact if_neg hrnd

theorem decRound_decTrack (s : State) (c : Block) {k : Nat} (hk : k < 56) :
    decRound (decTrack s c k) = decTrack s c (k + 1) := by
  rw [decTrack_of_lt s c hk, decRound]
  by_cases hlast : k = 55
  · subst hlast; rfl
  · have hval : 55 - k ≠ 0 := by omega
    have hrnd : (⟨55 - k, by omega⟩ : Fin 56) ≠ 0 := fun e => hval (congrArg Fin.val e)
    have hnext : (⟨55 - k, by omega⟩ : Fin 56) - 1 = ⟨55 - (k + 1), by omega⟩ := Fin.ext (rnd_sub_one_val hrnd)
    rw [decTrack_of_lt s c (by omega), ← hnext]
    exact if_neg hrnd

theorem encTrack_fsm (s : State) (p : Block) {k : Nat} (hk : k < 56) : (encTrack s p k).fsm = .enc := by
  rw [encTrack_of_lt s p hk]

theorem decTrack_fsm (s : State) (c : Block) {k : Nat} (hk : k < 56) : (decTrack s c k).fsm = .dec := by
  rw [decTrack_of_lt s c hk]

/-- The two sequences do not read the host's script. -/
theorem encTrack_setInputs (s : State) (p : Block) (k : Nat) (l : List Inputs) :
    (encTrack s p k).setInputs l = encTrack (s.setInputs l) p k := by
  unfold encTrack; split <;> rfl

theorem decTrack_setInputs (s : State) (c : Block) (k : Nat) (l : List Inputs) :
    (decTrack s c k).setInputs l = decTrack (s.setInputs l) c k := by
  unfold decTrack; split <;> rfl

theorem isOperation_encTrack (s : State) (p : Block) : IsOperation (encTrack s p) := by
  refine fun k hk => ⟨by rw [encTrack_fsm s p hk]; decide, fun l d hd => ?_⟩
  rw [encTrack_setInputs, encTrack_setInputs, edge_enc _ hd (encTrack_fsm _ p hk), encRound_encTrack _ p hk]

theorem isOperation_decTrack (s : State) (c : Block) : IsOperation (decTrack s c) := by
  refine fun k hk => ⟨by rw [decTrack_fsm s c hk]; decide, fun l d hd => ?_⟩
  rw [decTrack_setInputs, decTrack_setInputs, edge_dec _ hd (decTrack_fsm _ c hk), decRound_decTrack _ c hk]

/-! ### The accepting edge and the 56 edges after it (R180) -/

theorem exec_encrypt_of_complete (p : Block) {s : State} (h : s.kcnt.val = 640) :
    exec (.encrypt p) s = .next (encTrack s p 0) := startOrReject_of_complete .enc p 0 h

theorem exec_decrypt_of_complete (c : Block) {s : State} (h : s.kcnt.val = 640) :
    exec (.decrypt c) s = .next (decTrack s c 0) := startOrReject_of_complete .dec c 55 h

/-- From an edge that begins an operation, `k + 1` edges lead to its state `k`. -/
theorem stepN_succ_of_start {st : Nat → State} (hst : IsOperation st) {s : State} {l : List Inputs}
    (hstart : step s = .next ((st 0).setInputs l)) (hl : ∀ d ∈ l.take 56, d.rst = false) {k : Nat} (hk : k ≤ 56) :
    stepN (k + 1) s = .next ((st k).setInputs (l.drop k)) := by
  rw [stepN, hstart]
  exact stepN_of_isOperation hst hl hk

theorem step_encTrack {s : State} {p : Block} {rest : List Inputs} (hf : s.fsm = .idle) (hk : s.kcnt.val = 640)
    (hi : s.inputs = ⟨false, true, 0b011#3, p⟩ :: rest) : step s = .next ((encTrack s p 0).setInputs rest) :=
  step_startsEnc s hf (kcnt_eq_640_iff.mpr hk) hi

theorem step_decTrack {s : State} {c : Block} {rest : List Inputs} (hf : s.fsm = .idle) (hk : s.kcnt.val = 640)
    (hi : s.inputs = ⟨false, true, 0b100#3, c⟩ :: rest) : step s = .next ((decTrack s c 0).setInputs rest) :=
  step_startsDec s hf (kcnt_eq_640_iff.mpr hk) hi

/-- Settles O31: the accepting edge begins an operation, whose states are `encTrack`. -/
theorem encryptionRunsFiftySixEdges : Obligations.EncryptionRunsFiftySixEdges := by
  intro s p rest hf hcnt hi hrst
  have hrun {k : Nat} (hk : k ≤ 56) : stepN (k + 1) s = .next ((encTrack s p k).setInputs (rest.drop k)) :=
    stepN_succ_of_start (isOperation_encTrack s p) (step_encTrack hf hcnt hi) hrst hk
  refine ⟨fun k hk => ?_, hrun le_rfl⟩
  rw [hrun hk.le, encTrack_of_lt s p hk]; rfl

/-- Settles O32: the accepting edge begins an operation, whose states are `decTrack`. -/
theorem decryptionRunsFiftySixEdges : Obligations.DecryptionRunsFiftySixEdges := by
  intro s c rest hf hcnt hi hrst
  have hrun {k : Nat} (hk : k ≤ 56) : stepN (k + 1) s = .next ((decTrack s c k).setInputs (rest.drop k)) :=
    stepN_succ_of_start (isOperation_decTrack s c) (step_decTrack hf hcnt hi) hrst hk
  refine ⟨fun k hk => ?_, hrun le_rfl⟩
  rw [hrun hk.le, decTrack_of_lt s c hk]; rfl

/-! ### What a trace sink records (R184) -/

/-- One more edge at the end of a recorded run. -/
theorem traceN_succ {n : Nat} {s t : State} (h : stepN n s = .next t) :
    traceN (n + 1) s = traceN n s ++ (t.traceEntry t.nextInputs.rst).toList := by
  induction n generalizing s with
  | zero =>
    cases h
    simp only [traceN]
    cases step t <;> simp
  | succ n ih =>
    rw [traceN, traceN]
    rw [stepN] at h
    cases hs : step s with
    | next u =>
      rw [hs] at h
      simp only [ih h, List.append_assoc]
    | fault r => rw [hs] at h; cases h
    | refused r => rw [hs] at h; cases h

/-- In IDLE a sink records nothing. -/
theorem State.traceEntry_of_idle {s : State} (h : s.fsm = .idle) (rst : Bool) : s.traceEntry rst = none := by
  simp [State.traceEntry, State.outputs, State.tracePorts_idle h]

/-- In ENC, without reset, a sink records the round's index and its forward stages. -/
theorem State.traceEntry_of_enc {s : State} (h : s.fsm = .enc) : s.traceEntry false =
    let st := fwdStages s.block (roundSubkeys s.key s.rnd.val)
    some ⟨BitVec.ofNat 6 s.rnd.val, st.s1, st.s2, st.s3⟩ := by
  simp [State.traceEntry, State.outputs, State.tracePorts_enc h]

/-- In DEC, without reset, a sink records the round's index and its inverse stages. -/
theorem State.traceEntry_of_dec {s : State} (h : s.fsm = .dec) : s.traceEntry false =
    let st := invStages s.block (roundSubkeys s.key s.rnd.val)
    some ⟨BitVec.ofNat 6 s.rnd.val, st.s1, st.s2, st.s3⟩ := by
  simp [State.traceEntry, State.outputs, State.tracePorts_dec h]

/-- From an edge in IDLE that begins an operation, a sink records the entries of the operation's states in order. -/
theorem traceN_succ_of_start {st : Nat → State} (hst : IsOperation st) {s : State} {l : List Inputs}
    (hstart : step s = .next ((st 0).setInputs l)) (hf : s.fsm = .idle) (hl : ∀ d ∈ l.take 56, d.rst = false)
    {e : Nat → TraceEntry} (he : ∀ k < 56, (st k).traceEntry false = some (e k)) {n : Nat} (hn : n ≤ 56) :
    traceN (n + 1) s = (List.range n).map e := by
  induction n with
  | zero =>
    rw [traceN, hstart, State.traceEntry_of_idle hf]; rfl
  | succ n ih =>
    have hrst : ((st n).setInputs (l.drop n)).nextInputs.rst = false := headD_drop_rst hl hn
    have hentry : ((st n).setInputs (l.drop n)).traceEntry false = some (e n) := he n hn
    rw [traceN_succ (stepN_succ_of_start hst hstart hl (Nat.le_of_succ_le hn)), ih (Nat.le_of_succ_le hn), hrst, hentry,
      List.range_succ, List.map_append]
    rfl

/-- Settles O35: both operations record the entries of their sequence's states. -/
theorem traceRecordsEveryRound : Obligations.TraceRecordsEveryRound := by
  intro s b rest hf hcnt hrst
  constructor
  · have hstart := step_encTrack (s := { s with inputs := ⟨false, true, 0b011#3, b⟩ :: rest }) hf hcnt rfl
    refine traceN_succ_of_start (isOperation_encTrack _ b) hstart hf hrst (fun k hk => ?_) le_rfl
    rw [State.traceEntry_of_enc (encTrack_fsm _ b hk), encTrack_of_lt _ b hk]
  · have hstart := step_decTrack (s := { s with inputs := ⟨false, true, 0b100#3, b⟩ :: rest }) hf hcnt rfl
    refine traceN_succ_of_start (isOperation_decTrack _ b) hstart hf hrst (fun k hk => ?_) le_rfl
    rw [State.traceEntry_of_dec (decTrack_fsm _ b hk), decTrack_of_lt _ b hk]

end Sys2Proof.Machine
end

section
/-! SUPPORT. The host's view of an operation (30_encoding.md R80): what the driver makes of a command, a wait and a read,
and the obligations about ENCW and DECW. -/

namespace Sys2Proof.Machine

/-- A block in IDLE accepts a command's word at once. -/
theorem presentUntilAccepted_of_idle {s : State} (hf : s.fsm = .idle) (i : Instr) (fuel : Nat) :
    presentUntilAccepted (encode i) (fuel + 1) s = exec i s := by
  have hready : s.cmdReady false = true := State.outputs_cmdReady_of_idle hf
  rw [presentUntilAccepted, if_pos hready, edge_command s rfl hf rfl, word_present,
    decode_encode]

/-- A command that begins an operation, a wait and a read, on a block in IDLE: the block is at the operation's end, with
the host's script as it was, and the sample is of that state. -/
theorem performAll_operation {s : State} {i : Instr} {st : Nat → State} (hf : s.fsm = .idle) (hst : IsOperation st)
    (hstart : exec i s = .next (st 0)) (samples : List Sample) :
    performAll [.command (encode i), .wait, .read] (.at s samples) =
      .at ((st 56).setInputs (st 0).inputs) (samples ++ [readSample (st 56)]) := by
  have hcommand : perform (.command (encode i)) (.at s samples) = .at (st 0) samples := by
    rw [perform, presentUntilAccepted_of_idle hf i 55, hstart]
  have hidle : waitIdle Config.latency (st 0) = .next ((st 56).setInputs (st 0).inputs) :=
    waitIdle_of_isOperation hst (st 0).inputs (Nat.zero_add 56)
  have hwait : perform .wait (.at (st 0) samples) = .at ((st 56).setInputs (st 0).inputs) samples := by
    rw [perform, hidle]
  rw [performAll, List.foldl_cons, hcommand, List.foldl_cons, hwait]
  rfl

theorem assemble_encw_toNat (b : Block) :
    assemble (.encw b.toNat) = .ok [.command (encode (.encrypt b)), .wait, .read] := by
  rw [assemble_encw b.isLt, BitVec.ofNat_toNat, BitVec.setWidth_eq]

theorem assemble_decw_toNat (c : Block) :
    assemble (.decw c.toNat) = .ok [.command (encode (.decrypt c)), .wait, .read] := by
  rw [assemble_decw c.isLt, BitVec.ofNat_toNat, BitVec.setWidth_eq]

theorem performAll_encrypt {s : State} (hf : s.fsm = .idle) (hk : s.kcnt.val = 640) (b : Block) (samples : List Sample) :
    performAll [.command (encode (.encrypt b)), .wait, .read] (.at s samples) =
      .at { s with rnd := 55, block := encrypt b s.key, done := true, err := .ok }
        (samples ++ [⟨encrypt b s.key, true, 0#2⟩]) := by
  rw [performAll_operation hf (isOperation_encTrack s b) (exec_encrypt_of_complete b hk), encTrack_end, ← hf]; rfl

theorem performAll_decrypt {s : State} (hf : s.fsm = .idle) (hk : s.kcnt.val = 640) (c : Block) (samples : List Sample) :
    performAll [.command (encode (.decrypt c)), .wait, .read] (.at s samples) =
      .at { s with rnd := 0, block := decrypt c s.key, done := true, err := .ok }
        (samples ++ [⟨decrypt c s.key, true, 0#2⟩]) := by
  rw [performAll_operation hf (isOperation_decTrack s c) (exec_decrypt_of_complete c hk), decTrack_end, ← hf]; rfl

/-- Settles O55: the host's actions run a whole operation and read its end. -/
theorem hostReadsTheCipher : Obligations.HostReadsTheCipher := fun _ b samples hf hk =>
  ⟨⟨_, _, assemble_encw_toNat b, performAll_encrypt hf hk b samples, rfl⟩,
    ⟨_, _, assemble_decw_toNat b, performAll_decrypt hf hk b samples, rfl⟩⟩

/-- Settles O56: the second operation starts where the first one ended, with the same key. -/
theorem hostRoundTripReadsPlaintext : Obligations.HostRoundTripReadsPlaintext := by
  intro s p hf hk
  have hdec := performAll_decrypt (s := { s with rnd := 55, block := encrypt p s.key, done := true, err := .ok }) hf hk
    (encrypt p s.key) []
  rw [decrypt_encrypt] at hdec
  exact ⟨encrypt p s.key, _, _, _, assemble_encw_toNat p, assemble_decw_toNat _, performAll_encrypt hf hk p [], _, hdec⟩

end Sys2Proof.Machine
end

section
/-! SUPPORT. Key bits no output can show (10_state.md R34): two blocks that differ in such bits alone stay so through every
edge and show the same outputs. -/

namespace Sys2Proof.Machine

variable {s t : State}

theorem SameButUnreadKey.fsm_eq (h : SameButUnreadKey s t) : t.fsm = s.fsm := by rw [h.1]

theorem SameButUnreadKey.kcnt_eq (h : SameButUnreadKey s t) : t.kcnt = s.kcnt := by rw [h.1]

/-- With a complete key every slot the schedule reads is the same. -/
theorem SameButUnreadKey.roundSubkeys_eq (h : SameButUnreadKey s t) (hk : s.kcnt.val = 640) (r : Fin 56) :
    roundSubkeys t.key r.val = roundSubkeys s.key r.val :=
  (roundSubkeys_congr_of_keySlot (fun n hn => h.2 n (by omega) hn) r.isLt).symm

/-- An update that neither reads nor writes the key store, and does not count the key counter up. -/
theorem SameButUnreadKey.update (h : SameButUnreadKey s t) {f : State → State}
    (hf : ∀ k, f { s with key := k } = { f s with key := k }) (hkey : (f s).key = s.key) (hcnt : (f s).kcnt ≤ s.kcnt) :
    SameButUnreadKey (f s) (f t) := by
  obtain ⟨ht, hslot⟩ := h
  have hft : f t = { f s with key := t.key } := by rw [← hf, ← ht]
  refine ⟨by rw [hft], fun n hn h630 => ?_⟩
  rw [hft, hkey]
  exact hslot n (hn.trans_le hcnt) h630

/-- Writing the next slot of both stores. -/
theorem SameButUnreadKey.storeNibble (h : SameButUnreadKey s t) (hk : s.kcnt ≠ 640) (v : Nibble) :
    SameButUnreadKey (((s.storeNibble v).setKcnt (s.kcnt + 1)).setErr .ok)
      (((t.storeNibble v).setKcnt (t.kcnt + 1)).setErr .ok) := by
  have hcnt : s.kcnt.val ≠ 640 := kcnt_eq_640_iff.not.mp hk
  obtain ⟨ht, hslot⟩ := h
  refine ⟨by rw [ht]; rfl, fun n hn h630 => ?_⟩
  have htcnt : t.kcnt.val = s.kcnt.val := by rw [ht]
  simp only [State.setErr_kcnt, State.setKcnt_kcnt, kcnt_add_one_val hk] at hn
  simp only [State.setErr_key, State.setKcnt_key, State.storeNibble_key, htcnt]
  rw [keySlot_keyWriteNibble _ _ (by omega) (by omega), keySlot_keyWriteNibble _ _ (by omega) (by omega)]
  by_cases hlast : n = s.kcnt.val
  · rw [if_pos hlast, if_pos hlast]
  · rw [if_neg hlast, if_neg hlast, hslot n (by omega) h630]

/-! ### Commands and edges -/

/-- Writing `ERR` alone. -/
theorem SameButUnreadKey.setErr (h : SameButUnreadKey s t) (c : ErrCode) : SameButUnreadKey (s.setErr c) (t.setErr c) :=
  h.update (f := (·.setErr c)) (fun _ => rfl) rfl le_rfl

theorem SameButUnreadKey.execKeyNibble (h : SameButUnreadKey s t) (ign : BitVec 23) (v : Nibble) {s' : State}
    (he : execKeyNibble ign v s = .next s') : ∃ t', execKeyNibble ign v t = .next t' ∧ SameButUnreadKey s' t' := by
  by_cases hk : s.kcnt = 640
  · have hkt : t.kcnt = 640 := h.kcnt_eq.trans hk
    cases he.symm.trans (execKeyNibble_of_complete ign v hk)
    exact ⟨_, execKeyNibble_of_complete ign v hkt, h.setErr _⟩
  · have hkt : t.kcnt ≠ 640 := fun e => hk (h.kcnt_eq.symm.trans e)
    cases he.symm.trans (execKeyNibble_of_incomplete ign v hk)
    exact ⟨_, execKeyNibble_of_incomplete ign v hkt, h.storeNibble hk v⟩

theorem SameButUnreadKey.startOrReject (h : SameButUnreadKey s t) (f : Fsm) (b : Block) (r : Fin 56) {s' : State}
    (he : startOrReject f b r s = .next s') : ∃ t', startOrReject f b r t = .next t' ∧ SameButUnreadKey s' t' := by
  have hcnt : t.kcnt.val = s.kcnt.val := congrArg Fin.val h.kcnt_eq
  by_cases hk : s.kcnt.val = 640
  · cases he.symm.trans (startOrReject_of_complete f b r hk)
    exact ⟨_, startOrReject_of_complete f b r (hcnt.trans hk),
      h.update (f := fun u => (u.startOperation f b r).setErr .ok) (fun _ => rfl) rfl le_rfl⟩
  · cases he.symm.trans (startOrReject_of_incomplete f b r hk)
    exact ⟨_, startOrReject_of_incomplete f b r (fun e => hk (hcnt.symm.trans e)), h.setErr _⟩

theorem SameButUnreadKey.exec (h : SameButUnreadKey s t) {i : Instr} {s' : State} (he : exec i s = .next s') :
    ∃ t', exec i t = .next t' ∧ SameButUnreadKey s' t' := by
  cases i with
  | nop => cases he; exact ⟨_, rfl, h.setErr _⟩
  | keyReset =>
    cases he
    exact ⟨_, rfl, h.update (f := fun u => (u.setKcnt 0).setErr .ok) (fun _ => rfl) rfl (Fin.zero_le _)⟩
  | keyNibble ign v => exact h.execKeyNibble ign v he
  | encrypt p => exact h.startOrReject .enc p 0 he
  | decrypt c => exact h.startOrReject .dec c 55 he
  | reserved101 => cases he; exact ⟨_, rfl, h.setErr _⟩
  | reserved110 => cases he; exact ⟨_, rfl, h.setErr _⟩
  | reserved111 => cases he; exact ⟨_, rfl, h.setErr _⟩

/-- With a complete key, one forward round reads the same subkeys. -/
theorem SameButUnreadKey.encRound (h : SameButUnreadKey s t) (hk : s.kcnt.val = 640) :
    SameButUnreadKey (encRound s) (encRound t) := by
  have hsub := h.roundSubkeys_eq hk s.rnd
  obtain ⟨ht, hslot⟩ := h
  rw [SameButUnreadKey, encRound_key, encRound_key, encRound_kcnt]
  refine ⟨?_, hslot⟩
  rw [ht, Machine.encRound, hsub, Machine.encRound]
  dsimp only
  split <;> rfl

/-- With a complete key, one inverse round reads the same subkeys. -/
theorem SameButUnreadKey.decRound (h : SameButUnreadKey s t) (hk : s.kcnt.val = 640) :
    SameButUnreadKey (decRound s) (decRound t) := by
  have hsub := h.roundSubkeys_eq hk s.rnd
  obtain ⟨ht, hslot⟩ := h
  rw [SameButUnreadKey, decRound_key, decRound_key, decRound_kcnt]
  refine ⟨?_, hslot⟩
  rw [ht, Machine.decRound, hsub, Machine.decRound]
  dsimp only
  split <;> rfl

theorem SameButUnreadKey.edge (h : SameButUnreadKey s t) (hinv : s.Inv) {d : Inputs} {s' : State}
    (he : edge s d = .next s') : ∃ t', edge t d = .next t' ∧ SameButUnreadKey s' t' := by
  have hrunning (hf : s.fsm ≠ .idle) : s.kcnt.val = 640 := ((State.inv_iff_of_running hf).mp hinv).1
  rcases edge_cases s d with ⟨hr, hes⟩ | ⟨hr, hf, hv, hes⟩ | ⟨hr, hf, hv, hes⟩ | ⟨hr, hf, hes⟩ | ⟨hr, hf, hes⟩
  · cases he.symm.trans hes
    exact ⟨_, edge_reset t hr, h.update (f := State.applyReset) (fun _ => rfl) rfl (Fin.zero_le _)⟩
  · rw [edge_command t hr (h.fsm_eq.trans hf) hv]
    exact h.exec (hes.symm.trans he)
  · cases he.symm.trans hes
    exact ⟨t, edge_quiet t hr (h.fsm_eq.trans hf) hv, h⟩
  · cases he.symm.trans hes
    exact ⟨_, edge_enc t hr (h.fsm_eq.trans hf), h.encRound (hrunning (by simp [hf]))⟩
  · cases he.symm.trans hes
    exact ⟨_, edge_dec t hr (h.fsm_eq.trans hf), h.decRound (hrunning (by simp [hf]))⟩

/-! ### Outputs -/

theorem SameButUnreadKey.tracePorts (h : SameButUnreadKey s t) (hinv : s.Inv) : t.tracePorts = s.tracePorts := by
  have hrunning (hf : s.fsm ≠ .idle) : s.kcnt.val = 640 := ((State.inv_iff_of_running hf).mp hinv).1
  have ht := h.1
  cases hf : s.fsm with
  | idle => rw [State.tracePorts_idle hf, State.tracePorts_idle (h.fsm_eq.trans hf)]
  | enc =>
    have hsub := h.roundSubkeys_eq (hrunning (by simp [hf])) s.rnd
    rw [State.tracePorts_enc hf, State.tracePorts_enc (h.fsm_eq.trans hf), ← hsub, ht]
  | dec =>
    have hsub := h.roundSubkeys_eq (hrunning (by simp [hf])) s.rnd
    rw [State.tracePorts_dec hf, State.tracePorts_dec (h.fsm_eq.trans hf), ← hsub, ht]

theorem SameButUnreadKey.outputs (h : SameButUnreadKey s t) (hinv : s.Inv) (rst : Bool) :
    s.outputs rst = t.outputs rst := by
  rw [State.outputs, State.outputs, h.tracePorts hinv, h.1]
  rfl

/-- Both blocks have the same port values at their next edge. -/
theorem SameButUnreadKey.step_right (h : SameButUnreadKey s t) :
    step t = Machine.edge (t.setInputs s.inputs.tail) s.nextInputs := by
  have hi : t.inputs = s.inputs := by rw [h.1]
  rw [step_eq, State.nextInputs, State.nextInputs, hi]

/-- Settles O43: the trace ports read the subkeys alone, and every edge keeps the relation. -/
theorem unreadKeyIsUnobservable : Obligations.UnreadKeyIsUnobservable := by
  refine fun s t hinv h => ⟨h.outputs hinv, fun s' he => ?_⟩
  have hscript : SameButUnreadKey (s.setInputs s.inputs.tail) (t.setInputs s.inputs.tail) :=
    h.update (f := (·.setInputs s.inputs.tail)) (fun _ => rfl) rfl le_rfl
  rw [h.step_right]
  exact hscript.edge hinv he

end Sys2Proof.Machine
end
